-- ==== Sys2Proof/Word.lean ====
section
/-! DEFINITION. The two word types of the block (00_scope.md R7: all data paths are 32 bits, bytes are 8 bits). -/

namespace Sys2Proof

/-- A 32-bit data path (R7); bit 0 is the least significant bit (R8). -/
abbrev Word := BitVec 32

/-- A byte (R7). -/
abbrev Byte := BitVec 8

end Sys2Proof
end

