-- ==== Sys2Proof/Machine/Operands.lean ====
section
/-! DEFINITION. The operand record of a transaction (30_encoding.md R65): every shape the table of R65 uses, and the
one way to take each shape out of a record. -/

namespace Sys2Proof.Machine

open Sys2Proof

/-- An operand record (R65). A byte sequence is in stream order, element 0 first. -/
inductive OperandRecord where
  /-- No operand (`KS_NEXT`). -/
  | empty
  /-- One 32-bit operand (`KS_INIT`, `ADDR_MASK`, `UNPACK_LE32`, `ADDR_LOAD`). -/
  | word (w : Word)
  /-- `W` and `R`, 32 bits each (`SCR_DWORD`, `DSCR_DWORD`). -/
  | pair (w r : Word)
  /-- `B0, B1, B2, B3`, 8 bits each (`PACK_LE32`). -/
  | bytes4 (b0 b1 b2 b3 : Byte)
  /-- A byte sequence (`ENC_BLOCK`, `DEC_BLOCK`). -/
  | bytes (bs : List Byte)
deriving DecidableEq, Repr

/-- The record of a command that takes no operand. -/
def OperandRecord.asEmpty : OperandRecord → Option Unit
  | .empty => some ()
  | _ => none

/-- The single 32-bit operand, taken whole (30_encoding.md R72). -/
def OperandRecord.asWord : OperandRecord → Option Word
  | .word w => some w
  | _ => none

/-- The two 32-bit operands `W`, `R`. -/
def OperandRecord.asPair : OperandRecord → Option (Word × Word)
  | .pair w r => some (w, r)
  | _ => none

/-- The four bytes, `B0` first. -/
def OperandRecord.asBytes4 : OperandRecord → Option (Byte × Byte × Byte × Byte)
  | .bytes4 b0 b1 b2 b3 => some (b0, b1, b2, b3)
  | _ => none

/-- A byte sequence of exactly `n` bytes: an operand of another width cannot be presented (R72). -/
def OperandRecord.asBytes (n : Nat) : OperandRecord → Option (List Byte)
  | .bytes bs => if bs.length = n then some bs else none
  | _ => none

/-- A transaction as the host sends it (30_encoding.md R60): the 32-bit command word and the operand record. -/
structure Command where
  word : Word
  operands : OperandRecord
deriving DecidableEq, Repr

end Sys2Proof.Machine
end

