-- ==== Sys2Proof/Config.lean ====
section
/-! DEFINITION. The implementation parameters of 00_scope.md R6, each a named field whose default is the value the
spec prints and calls normative. The values the machine is built from are `Sys2Proof.Machine.params`
(Machine/Params.lean), so that one value can be corrected without touching this type. -/

namespace Sys2Proof

/-- The two readings of the address-mask formula (93_implementation_defined.md I3). -/
inductive MaskGrouping where
  /-- `((MASK_MUL * s16) mod MASK_MOD) mod 2^16`: the normative reading (40_keystream.md R81). -/
  | left
  /-- `(MASK_MUL * (s16 mod MASK_MOD)) mod 2^16`: the alternative of I3. -/
  | right
deriving DecidableEq, Repr

/-- The parameters of R6. The literals are unaudited against the original tool (log entry 6, UNVERIFIED, unsafe). -/
structure Config where
  /-- `LCG_A`, the generator's multiplier. -/
  lcgA : Word := 0x7FF8A3ED
  /-- `LCG_C`, the generator's increment. -/
  lcgC : Word := 0x2AA01D31
  /-- `SEED0`, the seed of a stream's first block. -/
  seed0 : Word := 0x6569B868
  /-- `MASK_MUL`. -/
  maskMul : Nat := 0xAA
  /-- `MASK_MOD`. -/
  maskMod : Nat := 0x7673
  /-- `AMASK_GROUPING`. -/
  amaskGrouping : MaskGrouping := .left
  /-- `BLOCK_BYTES`. -/
  blockBytes : Nat := 2048
  /-- `BLOCK_WORDS`. -/
  blockWords : Nat := 512
  /-- `PAYLOAD_BYTES`, header word 0. -/
  payloadBytes : Nat := 1024
  /-- `PAD_BEFORE`, the zero bytes before the payload. -/
  padBefore : Nat := 318
  /-- `PAD_AFTER`, the zero bytes after the payload. -/
  padAfter : Nat := 706
  /-- `OFFSET_DESC`, header word 3. -/
  offsetDesc : Word := 286
  /-- `OFFSET_BIAS`. -/
  offsetBias : Nat := 32
  /-- `OFFSET_MOD`. -/
  offsetMod : Nat := 512
  /-- `SEED_WORD`, the index of the seed word. -/
  seedWord : Nat := 6
  /-- `ROT_PHASE`. -/
  rotPhase : Nat := 2
  /-- `ROT_PERIOD`. -/
  rotPeriod : Nat := 16
  /-- `ROT_ENC`. -/
  rotEnc : Nat := 25
  /-- `ROT_DEC`. -/
  rotDec : Nat := 7
  /-- `ADDR_STEP`. -/
  addrStep : Word := 1024
  /-- `PAD_BYTE`, the host's padding of a short chunk (90_conflicts.md C3). -/
  padByte : Byte := 0xFF
deriving DecidableEq, Repr

end Sys2Proof
end

