-- ==== Sys2Proof/Machine/Params.lean ====
section
/-! DEFINITION. The parameter values this machine is built from: every one at R6's default. -/

namespace Sys2Proof.Machine

/-- The block's parameters (00_scope.md R6; 92_eei_decisions.md D23, D24; log entry 6). -/
def params : Sys2Proof.Config := {}

end Sys2Proof.Machine
end

