-- ==== Sys2Proof/Syntax.lean ====
section
/-! DEFINITION. The ten commands of 30_encoding.md R67, one constructor per row of the opcode table. A command is the
whole of one transaction the host sends (R60): the fields of its command word (`F`, `I`: R63, R64) and its operand
record (R65). -/

namespace Sys2Proof

/-- A command with its operands. -/
inductive Instr where
  /-- `KS_INIT SEED` (R83). -/
  | ksInit (seed : Word)
  /-- `KS_NEXT` (R84). -/
  | ksNext
  /-- `ADDR_MASK SEED` (R86). -/
  | addrMask (seed : Word)
  /-- `SCR_DWORD I, W, R` (R101); `I` stands in the command word (R64). -/
  | scrDword (i : BitVec 9) (w r : Word)
  /-- `DSCR_DWORD I, W, R` (R131). -/
  | dscrDword (i : BitVec 9) (w r : Word)
  /-- `PACK_LE32 B0, B1, B2, B3` (R160); `b0` is the lowest-addressed byte. -/
  | packLe32 (b0 b1 b2 b3 : Byte)
  /-- `UNPACK_LE32 W` (R161). -/
  | unpackLe32 (w : Word)
  /-- `ADDR_LOAD A` (R102). -/
  | addrLoad (a : Word)
  /-- `ENC_BLOCK P` for `f = false`, `ENC_BLOCK.FIRST P` for `f = true` (R63, R105); `p` in stream order (R65). -/
  | encBlock (f : Bool) (p : List Byte)
  /-- `DEC_BLOCK BLK` (R132). -/
  | decBlock (blk : List Byte)
deriving DecidableEq, Repr

end Sys2Proof
end

