-- ==== Sys2Proof/WellFormed.lean ====
section
/-! DEFINITION. Which commands can be presented: the widths of 30_encoding.md R65 are exact (R72). All widths but those
of the two byte sequences are carried by the types. -/

namespace Sys2Proof

/-- Bytes of `ENC_BLOCK`'s operand (R65, 20_memory.md R47): `PAYLOAD_BYTES` (00_scope.md R6). -/
def encOperandBytes : Nat := Machine.params.payloadBytes

/-- Bytes of `DEC_BLOCK`'s operand (R65, R47): `BLOCK_BYTES` (R6). -/
def decOperandBytes : Nat := Machine.params.blockBytes

/-- The command's operands have the widths of R65. -/
def Instr.wf : Instr → Bool
  | .ksInit _ => true
  | .ksNext => true
  | .addrMask _ => true
  | .scrDword _ _ _ => true
  | .dscrDword _ _ _ => true
  | .packLe32 _ _ _ _ => true
  | .unpackLe32 _ => true
  | .addrLoad _ => true
  | .encBlock _ p => p.length == encOperandBytes
  | .decBlock blk => blk.length == decOperandBytes

end Sys2Proof
end

