-- ==== Sys2Proof/Decode.lean ====
section
/-! DEFINITION. The command decoder of 30_encoding.md R68, total over all command words and operand records, and the
encoder written from the same table. -/

namespace Sys2Proof

open Sys2Proof.Machine

/-- The assigned opcodes (R67). -/
inductive Opcode where
  | ksInit | ksNext | addrMask | scrDword | dscrDword | packLe32 | unpackLe32 | addrLoad | encBlock | decBlock
deriving DecidableEq, Repr

/-- A row of the opcode table: a command word `cmd` selects it when `(cmd & mask) = pattern` (R67). -/
structure Row where
  op : Opcode
  pattern : Word
  mask : Word
deriving DecidableEq, Repr

/-- The opcode map of R67, row by row. -/
def opcodeRows : List Row :=
  [ ⟨.ksInit,     0x00000001, 0xFFFFFFFF⟩,
    ⟨.ksNext,     0x00000002, 0xFFFFFFFF⟩,
    ⟨.addrMask,   0x00000003, 0xFFFFFFFF⟩,
    ⟨.scrDword,   0x00000004, 0xFFFE00FF⟩,
    ⟨.dscrDword,  0x00000005, 0xFFFE00FF⟩,
    ⟨.packLe32,   0x00000006, 0xFFFFFFFF⟩,
    ⟨.unpackLe32, 0x00000007, 0xFFFFFFFF⟩,
    ⟨.addrLoad,   0x00000008, 0xFFFFFFFF⟩,
    ⟨.encBlock,   0x00000010, 0xFFFFFEFF⟩,
    ⟨.decBlock,   0x00000011, 0xFFFFFFFF⟩ ]

/-- The command word selects the row (R67). -/
def Row.selects (row : Row) (cmd : Word) : Bool := cmd &&& row.mask == row.pattern

/-- `F = cmd[8]` (R63). -/
def fieldF (cmd : Word) : Bool := cmd.getLsbD 8

/-- `I = cmd[16:8]` (R64). -/
def fieldI (cmd : Word) : BitVec 9 := cmd.extractLsb' 8 9

/-- The first row of the table that the word selects, or none: an illegal command word (R68 to R70). -/
def decodeOpcode (cmd : Word) : Option Opcode := (opcodeRows.find? fun row => row.selects cmd).map Row.op

/-- The command of an opcode, its fields taken from the word and its operands whole from the record (R65, R72). -/
def assembleOperands (op : Opcode) (cmd : Word) (ops : OperandRecord) : Option Instr :=
  match op with
  | .ksInit => ops.asWord.map .ksInit
  | .ksNext => ops.asEmpty.map fun _ => .ksNext
  | .addrMask => ops.asWord.map .addrMask
  | .scrDword => ops.asPair.map fun x => .scrDword (fieldI cmd) x.1 x.2
  | .dscrDword => ops.asPair.map fun x => .dscrDword (fieldI cmd) x.1 x.2
  | .packLe32 => ops.asBytes4.map fun x => .packLe32 x.1 x.2.1 x.2.2.1 x.2.2.2
  | .unpackLe32 => ops.asWord.map .unpackLe32
  | .addrLoad => ops.asWord.map .addrLoad
  | .encBlock => (ops.asBytes encOperandBytes).map (.encBlock (fieldF cmd))
  | .decBlock => (ops.asBytes decOperandBytes).map .decBlock

/-- What decoding a transaction gives. -/
inductive Decoded where
  /-- A command with its operands. -/
  | command (i : Instr)
  /-- No row of the opcode table matches the command word (R68): status `ILLEGAL_COMMAND`. -/
  | illegalWord
  /-- The word is legal but the operand record is not of the shape or width R65 fixes for it, which the protocol
  excludes (R72, 60_exceptions.md R194; log entry 5). -/
  | operandRecord
deriving DecidableEq, Repr

/-- Decode a transaction. The word is judged first and alone (R68, 60_exceptions.md R172, R176). -/
def decode (c : Command) : Decoded :=
  match decodeOpcode c.word with
  | none => .illegalWord
  | some op =>
    match assembleOperands op c.word c.operands with
    | some i => .command i
    | none => .operandRecord

/-! ### The encoder -/

/-- A `CMD0` word: `OP` in bits 7..0, all else 0 (R61). -/
def cmd0 (op : Byte) : Word := op.setWidth 32

/-- A `CMDF` word: `F` in bit 8 (R61). -/
def cmdF (op : Byte) (f : Bool) : Word := op.setWidth 32 ||| ((BitVec.ofBool f).setWidth 32 <<< 8)

/-- A `CMDI` word: `I` in bits 16..8 (R61). -/
def cmdI (op : Byte) (i : BitVec 9) : Word := op.setWidth 32 ||| (i.setWidth 32 <<< 8)

/-- The command word of a command (R61, R67). -/
def encodeWord : Instr → Word
  | .ksInit _ => cmd0 0x01
  | .ksNext => cmd0 0x02
  | .addrMask _ => cmd0 0x03
  | .scrDword i _ _ => cmdI 0x04 i
  | .dscrDword i _ _ => cmdI 0x05 i
  | .packLe32 _ _ _ _ => cmd0 0x06
  | .unpackLe32 _ => cmd0 0x07
  | .addrLoad _ => cmd0 0x08
  | .encBlock f _ => cmdF 0x10 f
  | .decBlock _ => cmd0 0x11

/-- The operand record of a command (R65). -/
def encodeOperands : Instr → OperandRecord
  | .ksInit seed => .word seed
  | .ksNext => .empty
  | .addrMask seed => .word seed
  | .scrDword _ w r => .pair w r
  | .dscrDword _ w r => .pair w r
  | .packLe32 b0 b1 b2 b3 => .bytes4 b0 b1 b2 b3
  | .unpackLe32 w => .word w
  | .addrLoad a => .word a
  | .encBlock _ p => .bytes p
  | .decBlock blk => .bytes blk

/-- The transaction that presents a command (R60). -/
def encode (i : Instr) : Command := ⟨encodeWord i, encodeOperands i⟩

/-! ### A command word alone, with operands of zeros -/

/-- The operand record of R65's shape for an opcode with every operand bit 0 (log entry 4). -/
def Opcode.zeroOperands : Opcode → OperandRecord
  | .ksInit => .word 0
  | .ksNext => .empty
  | .addrMask => .word 0
  | .scrDword => .pair 0 0
  | .dscrDword => .pair 0 0
  | .packLe32 => .bytes4 0 0 0 0
  | .unpackLe32 => .word 0
  | .addrLoad => .word 0
  | .encBlock => .bytes (List.replicate encOperandBytes 0)
  | .decBlock => .bytes (List.replicate decOperandBytes 0)

/-- The transaction of a command word with operands of zeros; an illegal word's record is empty, since no operand
record belongs to it. -/
def zeroOperandCommand (cmd : Word) : Command :=
  ⟨cmd, match decodeOpcode cmd with | some op => op.zeroOperands | none => .empty⟩

/-- The command word in the low `nbits` bits of `w`. -/
def tableWord (nbits w : Nat) : Word := BitVec.ofNat 32 (w % 2 ^ nbits)

/-- The command the decoder reads from a table word, its operands all zeros; none where the word is illegal. -/
def decodeTableWord (nbits w : Nat) : Option Instr :=
  match decode (zeroOperandCommand (tableWord nbits w)) with
  | .command i => some i
  | .illegalWord => none
  | .operandRecord => none

end Sys2Proof
end

