-- ==== Sys2Proof/Machine/Generator.lean ====
section
/-! DEFINITION. The keystream generator's functions (40_keystream.md section 1) and seed normalisation (00_scope.md R11). -/

namespace Sys2Proof.Machine

open Sys2Proof

/-- `norm(s)`: 0 becomes 1 (R11). -/
def norm (s : Word) : Word := if s = 0 then 1 else s

/-- `lcg(s) = (LCG_A * s + LCG_C) mod 2^32` (R80). -/
def lcg (s : Word) : Word := params.lcgA * s + params.lcgC

/-- `lcg^n(s)` (R80): what `applyKeystream` does step by step, in closed form. -/
def lcgPow : Nat → Word → Word
  | 0, s => s
  | n + 1, s => lcg (lcgPow n s)

/-- `r_i(s) = lcg^(i+1)(s)`: the keystream value that meets word `i` of a block whose state is `s` at its start (R82). -/
def keystream (s : Word) (i : Nat) : Word := lcgPow (i + 1) s

/-- The address mask before the final reduction, in the configured grouping (R81; 93_implementation_defined.md I3). -/
def amaskNat (s16 : Nat) : Nat :=
  match params.amaskGrouping with
  | .left => params.maskMul * s16 % params.maskMod
  | .right => params.maskMul * (s16 % params.maskMod)

/-- `amask(s)`, 16 bits: exact product, then `mod MASK_MOD`, then `mod 2^16` (R81). -/
def amask (s : Word) : BitVec 16 := BitVec.ofNat 16 (amaskNat (s.toNat % 2 ^ 16))

/-- `zext_32(amask(s))` (R86; 92_eei_decisions.md D19). -/
def amask32 (s : Word) : Word := (amask s).setWidth 32

end Sys2Proof.Machine
end

