-- ==== Sys2Proof/Machine/State.lean ====
section
/-! DEFINITION. The block's state (10_state.md R20), the host's side of the interface (60_exceptions.md R182, R194), the
reasons a step can stop, and the state after reset (10_state.md R31). -/

namespace Sys2Proof.Machine

open Sys2Proof

/-- The status of a response (60_exceptions.md R171). -/
inductive Status where
  /-- `OK`, code 0. -/
  | ok
  /-- `ILLEGAL_COMMAND`, code 1. -/
  | illegalCommand
  /-- `UNINITIALISED`, code 2. -/
  | uninitialised
  /-- `MALFORMED_BLOCK`, code 3. -/
  | malformedBlock
deriving DecidableEq, Repr

/-- The result record of a response (30_encoding.md R66). -/
inductive ResultRecord where
  /-- No result. -/
  | none
  /-- One 32-bit result: `R`, `M`, `Y` or `W`. -/
  | word (w : Word)
  /-- `UNPACK_LE32`'s `B0, B1, B2, B3`. -/
  | bytes4 (b0 b1 b2 b3 : Byte)
  /-- `ENC_BLOCK`'s `BLK`, in stream order. -/
  | block (blk : List Byte)
  /-- `DEC_BLOCK`'s header fields with the payload: status `OK`. -/
  | decoded (startAddress blockSize startByte : Word) (payload : List Byte)
  /-- `DEC_BLOCK`'s header fields alone: status `MALFORMED_BLOCK`. -/
  | header (startAddress blockSize startByte : Word)
deriving DecidableEq, Repr

/-- A response: status and result record (30_encoding.md R60). -/
structure Response where
  status : Status
  result : ResultRecord
deriving DecidableEq, Repr

/-- A move of the host (60_exceptions.md R182): issue a command, or assert reset. -/
inductive HostMove where
  | issue (c : Command)
  | reset
deriving DecidableEq, Repr

/-- The block buffer as (address, byte) cells, addresses strictly rising (`Memory.wf`). An unlisted address holds no
value (R31: unspecified after reset; log entry 3). -/
abbrev Memory := List Host.Cell

/-- The block image's address space is bytes 0 up to this bound (20_memory.md R40): `BLOCK_BYTES` (00_scope.md R6). -/
def Memory.size : Nat := params.blockBytes

/-- The canonical form: strictly rising addresses inside the image. No cell equals what an unlisted address reads as,
since an unlisted address holds no value. -/
abbrev Memory.wf (m : Memory) : Prop := m.Pairwise (fun x y => x.1 < y.1) ∧ ∀ c ∈ m, c.1 < Memory.size

/-- Why the machine can stop with a fault. The spec gives the block no fault (60_exceptions.md R170): both are raised by
the named operations over the block buffer alone, where 00_scope.md R12 leaves them undefined. Both are safe. -/
inductive Fault where
  /-- An access of `n` bytes at `a` that leaves bytes 0..2047; raised by `readBytes`, `memRead` and `memWrite`. Safe. -/
  | bufferRange (a n : Nat)
  /-- An access of `n` bytes at `a` that meets a byte holding no value; raised by `readBytes` and `memRead`. Safe. -/
  | bufferUnwritten (a n : Nat)
deriving DecidableEq, Repr

/-- Why a step can be refused. All are safe. -/
inductive Refusal where
  /-- The command has no meaning in this model; no arm of `exec` uses it. Safe. -/
  | notModelled (mnemonic : String)
  /-- The host presented an operand record that does not fit its command word (30_encoding.md R72; 60_exceptions.md
  R194: such a run is not a run of this block); raised by `step`. Safe. -/
  | operandRecord
  /-- A block command was given a byte sequence of another length than R65 fixes (93_implementation_defined.md I6:
  refuse); raised by the meanings of `ENC_BLOCK` and `DEC_BLOCK`, never reached by `step`. Safe. -/
  | operandWidth
deriving DecidableEq, Repr

/-- The state. The first six fields are the block's own, all of R20; the last two are the host's side (log entry 4). -/
structure State where
  /-- `MAGIC`: the encode direction's generator (R21). -/
  magic : Word
  /-- `MAGIC_V` (R22). -/
  magicV : Bool
  /-- `ADDR`: the running target address (R23). -/
  addr : Word
  /-- `ADDR_V` (R24). -/
  addrV : Bool
  /-- `DMAGIC`: the decode direction's generator (R25). -/
  dmagic : Word
  /-- The block buffer `Img[0..2047]` (R26). -/
  img : Memory
  /-- The host's moves not yet taken, the next one first (60_exceptions.md R182). -/
  pending : List HostMove
  /-- The responses returned so far, oldest first (60_exceptions.md R194). -/
  responses : List Response
deriving DecidableEq, Repr

/-- The block after reset (R31, 70_reset_and_hazards.md R200): both valid bits 0. The values of `MAGIC`, `ADDR` and
`DMAGIC` are unspecified; the zeros are the model's (log entries 1, 2: DESIGN CHOICE, unsafe). No buffer byte holds a
value (log entry 3). No move is pending and no response has been returned. -/
def State.reset : State :=
  { magic := 0, magicV := false, addr := 0, addrV := false, dmagic := 0, img := [], pending := [], responses := [] }

/-- What a step, and a meaning, answers. -/
abbrev StepOutcome := Host.Outcome State Fault Refusal

end Sys2Proof.Machine
end

