-- ==== Sys2Proof/Machine/Ops.lean ====
section
/-! DEFINITION. The named operations over the block buffer and the registers, and the two ways a command ends
(00_scope.md R12: `return` and `raise`). The block has no trap: raising a status is the whole of taking an exception, and
there is nothing to return from (60_exceptions.md R170, R178, R179). -/

namespace Sys2Proof.Machine

open Sys2Proof

/-! ### The block buffer -/

/-- The cells of a byte sequence laid from address `a` upwards. -/
def Memory.cellsFrom (a : Nat) : List Byte → Memory
  | [] => []
  | b :: bs => (a, b) :: Memory.cellsFrom (a + 1) bs

/-- The buffer filled from address 0 (10_state.md R26). -/
def Memory.ofBytes (bs : List Byte) : Memory := Memory.cellsFrom 0 bs

/-- Byte `a` of the buffer, none where it holds no value. -/
def Memory.read (m : Memory) (a : Nat) : Option Byte := (m.find? fun c => c.1 == a).map Prod.snd

/-- The buffer with byte `a` set to `b`, in canonical form. -/
def Memory.write (m : Memory) (a : Nat) (b : Byte) : Memory :=
  match m with
  | [] => [(a, b)]
  | c :: rest =>
    if a < c.1 then (a, b) :: c :: rest
    else if a = c.1 then (a, b) :: rest
    else c :: Memory.write rest a b

/-- The bytes of `bs` written from address `a` upwards. -/
def Memory.writeBytes (m : Memory) (a : Nat) : List Byte → Memory
  | [] => m
  | b :: bs => Memory.writeBytes (m.write a b) (a + 1) bs

/-- The byte values held at addresses `a` to `a + n - 1`, lowest address first. -/
def Memory.slice (m : Memory) (a n : Nat) : List Byte :=
  (m.filter fun c => decide (a ≤ c.1) && decide (c.1 < a + n)).map Prod.snd

/-- The `n` bytes from address `a`. Defined only inside the image and where every byte holds a value (R12, R40). -/
def Memory.readBytes (m : Memory) (a n : Nat) : Except Fault (List Byte) :=
  if a + n ≤ Memory.size then
    if (m.slice a n).length = n then .ok (m.slice a n) else .error (.bufferUnwritten a n)
  else .error (.bufferRange a n)

/-- A byte sequence as a little-endian unsigned number, the first byte least significant (20_memory.md R41). -/
def leNat : List Byte → Nat
  | [] => 0
  | b :: bs => b.toNat + 256 * leNat bs

/-- A number as `n` bytes, least significant first (R41). Of a number at or above `256 ^ n` these are the low `n` bytes,
which is the model's choice (log entry 9: DESIGN CHOICE). -/
def leBytes : Nat → Nat → List Byte
  | 0, _ => []
  | n + 1, v => BitVec.ofNat 8 v :: leBytes n (v / 256)

/-- `MemRead(a, n)` (R12): `n` bytes of `Img` from address `a` as a little-endian unsigned integer. -/
def memRead (m : Memory) (a n : Nat) : Except Fault Nat :=
  match m.readBytes a n with
  | .ok bs => .ok (leNat bs)
  | .error r => .error r

/-- `MemWrite(a, n, v)` (R12): `v` as `n` little-endian bytes from address `a`. R12 does not say what is stored where
`v` is at or above `256 ^ n`; the model stores its low `n` bytes (log entry 9: DESIGN CHOICE). -/
def memWrite (m : Memory) (a n v : Nat) : Except Fault Memory :=
  if a + n ≤ Memory.size then .ok (m.writeBytes a (leBytes n v)) else .error (.bufferRange a n)

/-! ### The registers -/

/-- `MAGIC <- v`, the valid bit untouched (10_state.md R21). -/
def State.setMagic (s : State) (v : Word) : State := { s with magic := v }

/-- `init(seed)`: `MAGIC <- norm(seed)` and `MAGIC_V <- 1` (40_keystream.md R83; 41_block_encoder.md R105). -/
def State.seedMagic (s : State) (seed : Word) : State := { s with magic := norm seed, magicV := true }

/-- `ADDR <- a` and `ADDR_V <- 1` (41_block_encoder.md R102). -/
def State.loadAddr (s : State) (a : Word) : State := { s with addr := a, addrV := true }

/-- `ADDR <- (ADDR + 1024) mod 2^32` (R105 step 3). -/
def State.advanceAddr (s : State) : State := { s with addr := s.addr + params.addrStep }

/-- `DMAGIC <- v` (10_state.md R25). -/
def State.setDmagic (s : State) (v : Word) : State := { s with dmagic := v }

/-- The block buffer filled with `bs` (R26). -/
def State.setBuffer (s : State) (bs : List Byte) : State := { s with img := Memory.ofBytes bs }

/-! ### How a command ends -/

/-- The block gives the host exactly one response (60_exceptions.md R182). -/
def State.respond (s : State) (st : Status) (res : ResultRecord) : State :=
  { s with responses := s.responses ++ [⟨st, res⟩] }

/-- `return (...)`: status `OK` with the listed result (R12). -/
def finish (s : State) (res : ResultRecord) : StepOutcome := .next (s.respond .ok res)

/-- `raise <Status>(...)`: the status with the listed fields. It saves nothing, switches nothing and transfers no
control (R12; 60_exceptions.md R175, R178). -/
def raise (s : State) (st : Status) (res : ResultRecord) : StepOutcome := .next (s.respond st res)

/-! ### The host's moves -/

/-- What the host presents next. -/
inductive Presented where
  /-- Nothing is pending: the block idles (60_exceptions.md R193). -/
  | nothing
  /-- Reset is asserted; the state is the one with the move taken. -/
  | reset (s : State)
  /-- A command is issued; the state is the one with the move taken. -/
  | command (c : Command) (s : State)
deriving DecidableEq, Repr

/-- Take the host's next move (60_exceptions.md R182). -/
def State.present (s : State) : Presented :=
  match s.pending with
  | [] => .nothing
  | .reset :: rest => .reset { s with pending := rest }
  | .issue c :: rest => .command c { s with pending := rest }

/-- The block's own state at its reset values; the host's moves and the responses it holds are not the block's
(10_state.md R31; 70_reset_and_hazards.md R200; log entry 4). -/
def State.resetBlock (s : State) : State :=
  { State.reset with pending := s.pending, responses := s.responses }

/-- The host's next move issues the command `c`. -/
def State.enqueue (s : State) (c : Command) : State := { s with pending := .issue c :: s.pending }

end Sys2Proof.Machine
end

