-- ==== Sys2Proof/Machine/Words.lean ====
section
/-! DEFINITION. Rotation (00_scope.md R10), the little-endian conversions (20_memory.md R41), the per-dword transforms
(41_block_encoder.md R100; 42_block_decoder.md R130) and the pass that applies one of them with the keystream (R85). -/

namespace Sys2Proof.Machine

open Sys2Proof

/-- `rotl32(x, n)` for `0 ≤ n < 32` (R10; log entry 7). -/
def rotl32 (x : Word) (n : Nat) : Word := if n = 0 then x else (x <<< n) ||| (x >>> (32 - n))

/-! ### Bytes and words -/

/-- `LE32` of four bytes, `b0` least significant (R41). -/
def le32 (b0 b1 b2 b3 : Byte) : Word :=
  b0.setWidth 32 ||| (b1.setWidth 32 <<< 8) ||| (b2.setWidth 32 <<< 16) ||| (b3.setWidth 32 <<< 24)

/-- Byte `k` of a word, byte 0 in bits 7..0 (20_memory.md R43). -/
def byteOf (w : Word) (k : Nat) : Byte := w.extractLsb' (8 * k) 8

/-- `unLE32(w)`: four bytes, lowest address first (R41). -/
def unLe32 (w : Word) : List Byte := [byteOf w 0, byteOf w 1, byteOf w 2, byteOf w 3]

/-- `BytesToWords(b)`, for a length that is a multiple of 4 (R41). -/
def bytesToWords : List Byte → List Word
  | b0 :: b1 :: b2 :: b3 :: rest => le32 b0 b1 b2 b3 :: bytesToWords rest
  | _ => []

/-- The word view `W[0..BLOCK_WORDS-1]` of a block image's bytes (10_state.md R26; 00_scope.md R6). -/
def blockWordsOf (bs : List Byte) : List Word := (bytesToWords bs).take params.blockWords

/-- `WordsToBytes(w)` (R41). -/
def wordsToBytes : List Word → List Byte
  | [] => []
  | w :: ws => unLe32 w ++ wordsToBytes ws

/-- Word `i` of a sequence of words; 0 beyond its end, which no block of 512 words reaches. -/
def wordAt (ws : List Word) (i : Nat) : Word := ws.getD i 0

/-! ### The per-dword transforms -/

/-- The transform classes of a word index (20_memory.md R45). -/
inductive WordClass where
  | seed | rotated | plain
deriving DecidableEq, Repr

/-- The class of index `i`, the tests in R100's order. -/
def wordClass (i : Nat) : WordClass :=
  if i = params.seedWord then .seed
  else if i % params.rotPeriod = params.rotPhase then .rotated
  else .plain

/-- `scr(i, w, r)` (R100). -/
def scr (i : Nat) (w r : Word) : Word :=
  match wordClass i with
  | .seed => w
  | .rotated => rotl32 (w ^^^ r) params.rotEnc
  | .plain => w ^^^ r

/-- `dscr(i, w, r)` (R130): the rotation comes before the XOR. -/
def dscr (i : Nat) (w r : Word) : Word :=
  match wordClass i with
  | .seed => w
  | .rotated => rotl32 w params.rotDec ^^^ r
  | .plain => w ^^^ r

/-- One pass over the words from index `i` with the generator at `s`: one generator step per index, whether or not the
transform uses the value (R85; 00_scope.md R13). It gives the transformed words and the generator's last state. -/
def applyKeystream (f : Nat → Word → Word → Word) : Nat → Word → List Word → List Word × Word
  | _, s, [] => ([], s)
  | i, s, w :: ws =>
    let r := lcg s
    (f i w r :: (applyKeystream f (i + 1) r ws).1, (applyKeystream f (i + 1) r ws).2)

end Sys2Proof.Machine
end

