-- ==== Sys2Proof/Machine/Converters.lean ====
section
/-! DEFINITION. The little-endian converter commands (43_converters.md). -/

namespace Sys2Proof.Machine

open Sys2Proof

/-- `PACK_LE32` (R160). -/
def execPackLe32 (b0 b1 b2 b3 : Byte) (s : State) : StepOutcome := finish s (.word (le32 b0 b1 b2 b3))

/-- `UNPACK_LE32` (R161). -/
def execUnpackLe32 (w : Word) (s : State) : StepOutcome :=
  finish s (.bytes4 (byteOf w 0) (byteOf w 1) (byteOf w 2) (byteOf w 3))

end Sys2Proof.Machine
end

