-- ==== Sys2Proof/Machine/Flags.lean ====
section
/-! DEFINITION. The block has no flags or condition codes (10_state.md R28): the outcome of a command is its status. This
file holds the status codes and the conditions that decide a status. -/

namespace Sys2Proof.Machine

open Sys2Proof

/-- The 8-bit status code (60_exceptions.md R171). -/
def Status.code : Status → BitVec 8
  | .ok => 0
  | .illegalCommand => 1
  | .uninitialised => 2
  | .malformedBlock => 3

/-- `KS_NEXT` would read `MAGIC` while `MAGIC_V = 0` (60_exceptions.md R173). -/
def ksNextUninitialised (s : State) : Bool := !s.magicV

/-- `ENC_BLOCK` would read `MAGIC` (with `F = 0`) or `ADDR` while its valid bit is 0 (R173; 41_block_encoder.md R105). -/
def encUninitialised (f : Bool) (s : State) : Bool := (!f && !s.magicV) || !s.addrV

/-- The decoded slice leaves the block: `start_byte + block_size > 2048` on unbounded integers (42_block_decoder.md R135). -/
def sliceLeavesBlock (startByte blockSize : Nat) : Bool := decide (params.blockBytes < startByte + blockSize)

end Sys2Proof.Machine
end

