-- ==== Sys2Proof/Machine/Decoder.lean ====
section
/-! DEFINITION. The block decode (42_block_decoder.md section 2). -/

namespace Sys2Proof.Machine

open Sys2Proof

/-- Steps 1 to 3 of R132: the reversed words and the decoder generator's last state. -/
def reverseWords (blk : List Byte) : List Word × Word :=
  applyKeystream dscr 0 (norm (wordAt (blockWordsOf blk) params.seedWord)) (blockWordsOf blk)

/-- Step 4: `W[1] <- (W[1] + amask(W[6])) mod 2^32`, the mask of the un-normalised raw seed (R133). -/
def restoreAddress (ws : List Word) : List Word :=
  ws.set 1 (wordAt ws 1 + amask32 (wordAt ws params.seedWord))

/-- The decoded words after step 4. -/
def decodedWords (blk : List Byte) : List Word := restoreAddress (reverseWords blk).1

/-- `start_address` (R134). -/
def startAddressOf (ws : List Word) : Word := wordAt ws 1

/-- `block_size`, unsigned (R134). -/
def blockSizeOf (ws : List Word) : Word := wordAt ws 0

/-- `start_byte = (W[3] mod 512) + 32` (R134). -/
def startByteOf (ws : List Word) : Nat := (wordAt ws 3).toNat % params.offsetMod + params.offsetBias

/-- Steps 5 and 6 of R132 on a state whose buffer holds the serialised words `ws`. -/
def extractPayload (ws : List Word) (s : State) : StepOutcome :=
  let size := blockSizeOf ws
  let start := startByteOf ws
  if sliceLeavesBlock start size.toNat then
    raise s .malformedBlock (.header (startAddressOf ws) size (BitVec.ofNat 32 start))
  else
    match s.img.readBytes start size.toNat with
    | .ok payload => finish s (.decoded (startAddressOf ws) size (BitVec.ofNat 32 start) payload)
    | .error r => .fault r

/-- `DEC_BLOCK` (R132). `MAGIC`, `MAGIC_V`, `ADDR` and `ADDR_V` stay as they are, whatever the status (R137). -/
def execDecBlock (blk : List Byte) (s : State) : StepOutcome :=
  if blk.length = decOperandBytes then
    let ws := decodedWords blk
    extractPayload ws ((s.setDmagic (reverseWords blk).2).setBuffer (wordsToBytes ws))
  else .refused .operandWidth

end Sys2Proof.Machine
end

