-- ==== Sys2Proof/Machine/Encoder.lean ====
section
/-! DEFINITION. The running-address load and the block encode (41_block_encoder.md sections 2 and 3). -/

namespace Sys2Proof.Machine

open Sys2Proof

/-- `ADDR_LOAD` (R102). -/
def execAddrLoad (a : Word) (s : State) : StepOutcome := finish (s.loadAddr a) .none

/-- `PlainImage(P)` (R103). -/
def plainImage (p : List Byte) : List Byte :=
  List.replicate params.padBefore 0 ++ p ++ List.replicate params.padAfter 0

/-- Header insertion (R104): words 0, 1, 3 and 6, in this order. -/
def insertHeader (addr seed : Word) (ws : List Word) : List Word :=
  (((ws.set 0 (BitVec.ofNat 32 params.payloadBytes)).set 1 addr).set 3 params.offsetDesc).set params.seedWord seed

/-- `W[1] <- (W[1] - amask(W[6])) mod 2^32` (R105 step 4, R106). -/
def obfuscateAddress (ws : List Word) : List Word :=
  ws.set 1 (wordAt ws 1 - amask32 (wordAt ws params.seedWord))

/-- The plain words after steps 1, 2 and 4 of R105. -/
def plainWords (addr seed : Word) (p : List Byte) : List Word :=
  obfuscateAddress (insertHeader addr seed (blockWordsOf (plainImage p)))

/-- Steps 1, 2, 4 and 5 of R105: the wire words, and the generator's state after the block. -/
def encodeWords (addr seed : Word) (p : List Byte) : List Word × Word :=
  applyKeystream scr 0 seed (plainWords addr seed p)

/-- The input step of R105: `F = 1` seeds the generator with `SEED0`. -/
def State.beginBlock (s : State) (f : Bool) : State := if f then s.seedMagic params.seed0 else s

/-- `ENC_BLOCK` (R105). Nothing is written unless both checks pass, not even the `F = 1` seeding. -/
def execEncBlock (f : Bool) (p : List Byte) (s : State) : StepOutcome :=
  if p.length = encOperandBytes then
    if encUninitialised f s then raise s .uninitialised .none
    else
      let s1 := s.beginBlock f
      let out := encodeWords s1.addr s1.magic p
      let blk := wordsToBytes out.1
      finish ((s1.advanceAddr.setMagic out.2).setBuffer blk) (.block blk)
  else .refused .operandWidth

end Sys2Proof.Machine
end

