-- ==== Sys2Proof/Machine/Keystream.lean ====
section
/-! DEFINITION. The generator's commands (40_keystream.md section 2). -/

namespace Sys2Proof.Machine

open Sys2Proof

/-- `KS_INIT` (R83). -/
def execKsInit (seed : Word) (s : State) : StepOutcome := finish (s.seedMagic seed) .none

/-- `KS_NEXT` (R84). -/
def execKsNext (s : State) : StepOutcome :=
  if ksNextUninitialised s then raise s .uninitialised .none
  else finish (s.setMagic (lcg s.magic)) (.word (lcg s.magic))

/-- `ADDR_MASK` (R86). -/
def execAddrMask (seed : Word) (s : State) : StepOutcome := finish s (.word (amask32 seed))

end Sys2Proof.Machine
end

