-- ==== Sys2Proof/Machine/Scrambler.lean ====
section
/-! DEFINITION. The per-dword scrambler's commands (41_block_encoder.md R101; 42_block_decoder.md R131). -/

namespace Sys2Proof.Machine

open Sys2Proof

/-- `SCR_DWORD` (R101); `I` is zero-extended, neither scaled nor sign-extended (30_encoding.md R72). -/
def execScrDword (i : BitVec 9) (w r : Word) (s : State) : StepOutcome := finish s (.word (scr i.toNat w r))

/-- `DSCR_DWORD` (R131). -/
def execDscrDword (i : BitVec 9) (w r : Word) (s : State) : StepOutcome := finish s (.word (dscr i.toNat w r))

end Sys2Proof.Machine
end

