-- ==== Sys2Proof/Machine/Dispatch.lean ====
section
/-! DEFINITION. One arm per command of 30_encoding.md R67. -/

namespace Sys2Proof.Machine

open Sys2Proof

def exec (i : Instr) (s : State) : Host.Outcome State Fault Refusal :=
  match i with
  | .ksInit seed => Sys2Proof.Machine.execKsInit seed s
  | .ksNext => Sys2Proof.Machine.execKsNext s
  | .addrMask seed => Sys2Proof.Machine.execAddrMask seed s
  | .scrDword i9 w r => Sys2Proof.Machine.execScrDword i9 w r s
  | .dscrDword i9 w r => Sys2Proof.Machine.execDscrDword i9 w r s
  | .packLe32 b0 b1 b2 b3 => Sys2Proof.Machine.execPackLe32 b0 b1 b2 b3 s
  | .unpackLe32 w => Sys2Proof.Machine.execUnpackLe32 w s
  | .addrLoad a => Sys2Proof.Machine.execAddrLoad a s
  | .encBlock f p => Sys2Proof.Machine.execEncBlock f p s
  | .decBlock blk => Sys2Proof.Machine.execDecBlock blk s

end Sys2Proof.Machine
end

