-- ==== Sys2Proof/Machine/Step.lean ====
section
/-! DEFINITION. One step: the block takes the host's next move and completes it (60_exceptions.md R182). -/

namespace Sys2Proof.Machine

open Sys2Proof

/-- One step. With nothing pending the block idles (R193); a reset puts the block at its reset values (R200); an illegal
word raises `ILLEGAL_COMMAND` before any state is read (R172); a command is executed whole (20_memory.md R48). A record
that does not fit its command word is refused (log entry 5). -/
def step (s : State) : Host.Outcome State Fault Refusal :=
  match s.present with
  | .nothing => .next s
  | .reset s' => .next s'.resetBlock
  | .command c s' =>
    match decode c with
    | .command i => exec i s'
    | .illegalWord => raise s' .illegalCommand .none
    | .operandRecord => .refused .operandRecord

/-- The command word of a table row as the host's next move, with operands of zeros (log entry 4). -/
def State.withFetchWord (s : State) (nbits w : Nat) : State :=
  s.enqueue (zeroOperandCommand (tableWord nbits w))

end Sys2Proof.Machine
end

