-- ==== Sys2Proof/Machine/Asm.lean ====
section
/-! DEFINITION. The host's side of a program: the assembler's statements and checks (30_encoding.md R73), the
pseudo-instructions (R74), and what the host makes of the responses (R74; 60_exceptions.md R183, R184). None of it is part of
the block; `step` uses none of it. -/

namespace Sys2Proof.Machine

open Sys2Proof

/-- An assembler statement (R73). Numbers are unbounded here: the assembler rejects what does not fit. -/
inductive Statement where
  | ksInit (seed : Nat)
  | ksNext
  | addrMask (seed : Nat)
  | scrDword (i w r : Nat)
  | dscrDword (i w r : Nat)
  | packLe32 (b0 b1 b2 b3 : Nat)
  | unpackLe32 (w : Nat)
  | addrLoad (a : Nat)
  | encBlock (buf : List Byte)
  | encBlockFirst (buf : List Byte)
  | decBlock (buf : List Byte)
deriving DecidableEq, Repr

/-- The mnemonic as R73 spells it; `ENC_BLOCK.FIRST` is the `F = 1` form. -/
def Statement.mnemonic : Statement → String
  | .ksInit _ => "KS_INIT"
  | .ksNext => "KS_NEXT"
  | .addrMask _ => "ADDR_MASK"
  | .scrDword _ _ _ => "SCR_DWORD"
  | .dscrDword _ _ _ => "DSCR_DWORD"
  | .packLe32 _ _ _ _ => "PACK_LE32"
  | .unpackLe32 _ => "UNPACK_LE32"
  | .addrLoad _ => "ADDR_LOAD"
  | .encBlock _ => "ENC_BLOCK"
  | .encBlockFirst _ => "ENC_BLOCK.FIRST"
  | .decBlock _ => "DEC_BLOCK"

/-- A number that fits `w` bits (R73). -/
def fitBits (w n : Nat) : Option (BitVec w) := if n < 2 ^ w then some (BitVec.ofNat w n) else none

/-- A buffer of the exact length the command takes (R73). -/
def fitBuffer (n : Nat) (buf : List Byte) : Option (List Byte) := if buf.length = n then some buf else none

/-- Assemble a statement; none where an operand does not fit its field (R73). -/
def assemble : Statement → Option Instr
  | .ksInit seed => (fitBits 32 seed).map .ksInit
  | .ksNext => some .ksNext
  | .addrMask seed => (fitBits 32 seed).map .addrMask
  | .scrDword i w r => do pure (.scrDword (← fitBits 9 i) (← fitBits 32 w) (← fitBits 32 r))
  | .dscrDword i w r => do pure (.dscrDword (← fitBits 9 i) (← fitBits 32 w) (← fitBits 32 r))
  | .packLe32 b0 b1 b2 b3 => do
    pure (.packLe32 (← fitBits 8 b0) (← fitBits 8 b1) (← fitBits 8 b2) (← fitBits 8 b3))
  | .unpackLe32 w => (fitBits 32 w).map .unpackLe32
  | .addrLoad a => (fitBits 32 a).map .addrLoad
  | .encBlock buf => (fitBuffer encOperandBytes buf).map (.encBlock false)
  | .encBlockFirst buf => (fitBuffer encOperandBytes buf).map (.encBlock true)
  | .decBlock buf => (fitBuffer decOperandBytes buf).map .decBlock

/-- The host moves of a program: every statement assembled and encoded. R73 rejects only the statement that does not
fit; that a program with such a statement then issues nothing at all is the model's choice (log entry 8: DESIGN CHOICE). -/
def assembleProgram : List Statement → Option (List HostMove)
  | [] => some []
  | st :: rest => do pure (.issue (encode (← assemble st)) :: (← assembleProgram rest))

/-! ### Pseudo-instructions (R74) -/

/-- `KS_SKIP n`: `n` copies of `KS_NEXT`. -/
def ksSkip (n : Nat) : List Statement := List.replicate n .ksNext

/-- `chunk_k` of `ENC_STREAM`: 1024 bytes of the data, a short one padded with `0xFF` (90_conflicts.md C3). -/
def streamChunk (data : List Byte) (k : Nat) : List Byte :=
  let c := (data.drop (params.payloadBytes * k)).take params.payloadBytes
  c ++ List.replicate (params.payloadBytes - c.length) params.padByte

/-- The number of chunks, `ceil(len(data) / 1024)`. -/
def streamChunks (data : List Byte) : Nat := (data.length + params.payloadBytes - 1) / params.payloadBytes

/-- `ENC_STREAM addr, data`: the address, the first chunk as `ENC_BLOCK.FIRST`, the others as `ENC_BLOCK`. -/
def encStream (a : Nat) (data : List Byte) : List Statement :=
  .addrLoad a :: (List.range (streamChunks data)).map fun k =>
    if k = 0 then .encBlockFirst (streamChunk data k) else .encBlock (streamChunk data k)

/-- `DEC_STREAM data`: one `DEC_BLOCK` per whole block; a trailing partial block is not decoded. -/
def decStream (data : List Byte) : List Statement :=
  (List.range (data.length / params.blockBytes)).map fun k =>
    .decBlock ((data.drop (params.blockBytes * k)).take params.blockBytes)

/-! ### What the host makes of the responses (R74, R183, R184) -/

/-- The result of `KS_SKIP`, from the responses to its copies: that of the last copy, none where it issued nothing
(R74). -/
def ksSkipOutput (rs : List Response) : Option ResultRecord := rs.getLast?.map Response.result

/-- The output of `ENC_STREAM`: the concatenation of the blocks returned. -/
def encStreamOutput (rs : List Response) : List Byte :=
  rs.flatMap fun r =>
    match r.result with
    | .block blk => blk
    | _ => []

/-- Why the host ends a decode run (R184): the block's index and the three header fields. -/
structure StreamError where
  index : Nat
  startAddress : Word
  blockSize : Word
  startByte : Word
deriving DecidableEq, Repr

/-- What the responses of a decode run come to, from block `k` on (the run itself is `runHost`, Machine/HostRun.lean): the
payloads in order up to the first malformed block, and that block's error, none where every block decodes. -/
def decStreamOutput (k : Nat) : List Response → List Byte × Option StreamError
  | [] => ([], none)
  | r :: rs =>
    match r.result with
    | .header a size start => ([], some ⟨k, a, size, start⟩)
    | .decoded _ _ _ payload => (payload ++ (decStreamOutput (k + 1) rs).1, (decStreamOutput (k + 1) rs).2)
    | _ => decStreamOutput (k + 1) rs

end Sys2Proof.Machine
end

