-- ==== Sys2Proof/Machine/HostRun.lean ====
section
/-! DEFINITION. The host at work: it issues one command, waits for the response, and only then decides what comes next
(60_exceptions.md R182). A decode run ends at its first malformed block (R184). None of it is part of the block; `step`
uses none of it, and it uses `step` alone. -/

namespace Sys2Proof.Machine

open Sys2Proof

/-- A command the host is to issue. `streamBlock` is the block's index where the command is a `DEC_BLOCK` of a
`DEC_STREAM`, so that a malformed block ends the run (R184); a single `DEC_BLOCK` ends no run. -/
structure HostCommand where
  command : Command
  streamBlock : Option Nat
deriving DecidableEq, Repr

/-- The commands of a list of statements, numbered from `index` where they are those of a `DEC_STREAM`. That none of
them is issued where the assembler rejects one is the model's choice: 30_encoding.md R73 rejects only the statement
itself (log entry 8: DESIGN CHOICE). -/
def hostCommands (index : Option Nat) : List Statement → Option (List HostCommand)
  | [] => some []
  | st :: rest => do
    pure (⟨encode (← assemble st), index⟩ :: (← hostCommands (index.map (· + 1)) rest))

/-- The commands of `DEC_STREAM data` (R74); no statement of it is ever rejected. -/
def decStreamCommands (data : List Byte) : Option (List HostCommand) := hostCommands (some 0) (decStream data)

/-- The error with which the host ends the run after this command, none where the run goes on (R184). -/
def HostCommand.error (h : HostCommand) (newest : Option Response) : Option StreamError :=
  match h.streamBlock, newest with
  | some k, some ⟨.malformedBlock, .header a size start⟩ => some ⟨k, a, size, start⟩
  | _, _ => none

/-- How a host's run ended: the block's state with every response received, and the error if one ended the run. -/
structure HostRun where
  state : State
  error : Option StreamError
deriving DecidableEq, Repr

/-- The host's run: each command issued and answered before the next one, none issued after an error (R182, R184). -/
def runHost : List HostCommand → State → Host.Outcome HostRun Fault Refusal
  | [], s => .next ⟨s, none⟩
  | h :: rest, s =>
    match step (s.enqueue h.command) with
    | .next t =>
      match h.error t.responses.getLast? with
      | some e => .next ⟨t, some e⟩
      | none => runHost rest t
    | .fault r => .fault r
    | .refused r => .refused r

end Sys2Proof.Machine
end

