-- ==== Sys2Proof/Machine/HostText.lean ====
section
/-! DEFINITION. The texts of the host: the assembly syntax (30_encoding.md R73, R74) and the status line (60_exceptions.md
R186). None of it is part of the block; `step` uses none of it. What separates the parts of a statement, the letter
case of hexadecimal digits, and that one rejected statement rejects its whole program are the model's (log entry 8). -/

namespace Sys2Proof.Machine

open Sys2Proof

/-- The host's byte buffers by name (R73: `<buf>` names a host byte buffer). -/
abbrev Buffers := List (String × List Byte)

/-- A decimal digit. -/
def decDigit (c : Char) : Option Nat := if '0' ≤ c ∧ c ≤ '9' then some (c.toNat - '0'.toNat) else none

/-- A hexadecimal digit, of either case. -/
def hexDigit (c : Char) : Option Nat :=
  if 'a' ≤ c ∧ c ≤ 'f' then some (c.toNat - 'a'.toNat + 10)
  else if 'A' ≤ c ∧ c ≤ 'F' then some (c.toNat - 'A'.toNat + 10)
  else decDigit c

/-- The number written by digits, after those already read. -/
def digitsValue (digit : Char → Option Nat) (base : Nat) : Nat → List Char → Option Nat
  | acc, [] => some acc
  | acc, c :: cs =>
    match digit c with
    | some d => digitsValue digit base (acc * base + d) cs
    | none => none

/-- A number: `0x` and hexadecimal digits, or decimal digits; at least one digit (R73). -/
def readNumber : List Char → Option Nat
  | [] => none
  | '0' :: 'x' :: [] => none
  | '0' :: 'x' :: c :: cs => digitsValue hexDigit 16 0 (c :: cs)
  | c :: cs => digitsValue decDigit 10 0 (c :: cs)

/-- The text before a comment: `;` starts one (R73). -/
def stripComment (cs : List Char) : List Char := cs.takeWhile fun c => c != ';'

def isBlank (c : Char) : Bool := c == ' ' || c == '\t'

def trimBlanks (cs : List Char) : List Char := ((cs.dropWhile isBlank).reverse.dropWhile isBlank).reverse

/-- The pieces between commas. -/
def splitCommas : List Char → List (List Char)
  | [] => [[]]
  | c :: cs =>
    if c = ',' then [] :: splitCommas cs
    else
      match splitCommas cs with
      | piece :: rest => (c :: piece) :: rest
      | [] => [[c]]

/-- The operands of a statement. -/
def operandTexts (cs : List Char) : List (List Char) :=
  if trimBlanks cs = [] then [] else (splitCommas cs).map trimBlanks

/-- The buffer of a name. -/
def readBuffer (bufs : Buffers) (name : List Char) : Option (List Byte) :=
  (bufs.find? fun b => b.1 == String.ofList name).map Prod.snd

/-- What a line stands for. -/
inductive ProgramLine where
  /-- Statements issued one after the other, whatever their statuses. -/
  | statements (sts : List Statement)
  /-- `DEC_STREAM data`: a malformed block ends the run (R74; 60_exceptions.md R184). -/
  | decodeStream (data : List Byte)
deriving DecidableEq, Repr

/-- The commands the host issues for a line, none at all if one of its statements is rejected (log entry 8: DESIGN CHOICE). -/
def ProgramLine.commands : ProgramLine → Option (List HostCommand)
  | .statements sts => hostCommands none sts
  | .decodeStream data => decStreamCommands data

/-- The statements of a mnemonic with its operands, but for `DEC_STREAM`; none where R73 and R74 list no such statement. -/
def readStatement (bufs : Buffers) (mnemonic : String) (ops : List (List Char)) : Option (List Statement) :=
  match mnemonic, ops with
  | "KS_INIT", [a] => do pure [.ksInit (← readNumber a)]
  | "KS_NEXT", [] => some [.ksNext]
  | "ADDR_MASK", [a] => do pure [.addrMask (← readNumber a)]
  | "SCR_DWORD", [i, w, r] => do pure [.scrDword (← readNumber i) (← readNumber w) (← readNumber r)]
  | "DSCR_DWORD", [i, w, r] => do pure [.dscrDword (← readNumber i) (← readNumber w) (← readNumber r)]
  | "PACK_LE32", [b0, b1, b2, b3] => do
    pure [.packLe32 (← readNumber b0) (← readNumber b1) (← readNumber b2) (← readNumber b3)]
  | "UNPACK_LE32", [w] => do pure [.unpackLe32 (← readNumber w)]
  | "ADDR_LOAD", [a] => do pure [.addrLoad (← readNumber a)]
  | "ENC_BLOCK", [b] => do pure [.encBlock (← readBuffer bufs b)]
  | "ENC_BLOCK.FIRST", [b] => do pure [.encBlockFirst (← readBuffer bufs b)]
  | "DEC_BLOCK", [b] => do pure [.decBlock (← readBuffer bufs b)]
  | "KS_SKIP", [n] => do pure (ksSkip (← readNumber n))
  | "ENC_STREAM", [a, d] => do pure (encStream (← readNumber a) (← readBuffer bufs d))
  | _, _ => none

/-- What a mnemonic with its operands stands for. -/
def readMnemonic (bufs : Buffers) (mnemonic : String) (ops : List (List Char)) : Option ProgramLine :=
  match mnemonic, ops with
  | "DEC_STREAM", [d] => (readBuffer bufs d).map .decodeStream
  | _, _ => (readStatement bufs mnemonic ops).map .statements

/-- What one line stands for: none where it is rejected, no statement for an empty line or a comment. -/
def readLine (bufs : Buffers) (line : String) : Option ProgramLine :=
  let text := trimBlanks (stripComment line.toList)
  if text = [] then some (.statements [])
  else
    let mnemonic := text.takeWhile fun c => !isBlank c
    readMnemonic bufs (String.ofList mnemonic) (operandTexts (text.drop mnemonic.length))

/-- The commands of a program text, for `runHost`. R73 rejects only the statement itself; that a text with a rejected
line assembles to nothing, so that none of its other statements is issued, is the model's choice (log entry 8: DESIGN
CHOICE). -/
def assembleText (bufs : Buffers) : List String → Option (List HostCommand)
  | [] => some []
  | line :: rest => do
    let commands ← (← readLine bufs line).commands
    pure (commands ++ (← assembleText bufs rest))

/-! ### The status line (R186) -/

/-- An upper-case hexadecimal digit. -/
def hexChar (n : Nat) : Char := Char.ofNat (if n < 10 then 48 + n else 55 + n)

/-- `%08X`: the 8 upper-case hexadecimal digits of a word. -/
def hex8 (w : Word) : List Char := (List.range 8).map fun k => hexChar (w.toNat / 16 ^ (7 - k) % 16)

/-- `%X`: the same without leading zeros, `0` for 0. -/
def hexShort (w : Word) : List Char :=
  match (hex8 w).dropWhile fun c => c == '0' with
  | [] => ['0']
  | cs => cs

/-- The status line the host prints for a decoded block: `addr`, `size`, `pos` (R186). -/
def statusLine (startAddress blockSize startByte : Word) : String :=
  String.ofList ("addr: 0x".toList ++ hex8 startAddress ++ "; size: ".toList ++ Nat.toDigits 10 blockSize.toNat ++
    "; pos: 0x".toList ++ hexShort startByte)

end Sys2Proof.Machine
end

