-- ==== Sys2Proof/Safety.lean ====
section
/-! DEFINITION. The terms the statements are made in: what a run shows (60_exceptions.md R194), when the host keeps the
protocol (R182), and what a safe step is. -/

namespace Sys2Proof.Safety

open Sys2Proof Sys2Proof.Machine

/-- The register's value, none while its valid bit is 0 (R194). -/
def validValue (v : Bool) (x : Word) : Option Word := if v then some x else none

/-- What a run shows: the responses, and the two registers where they are valid (R194). `DMAGIC` and the buffer are not
observed. -/
structure Observation where
  responses : List Response
  magic : Option Word
  addr : Option Word
deriving DecidableEq, Repr

/-- The observation of a state. -/
def observe (s : State) : Observation :=
  ⟨s.responses, validValue s.magicV s.magic, validValue s.addrV s.addr⟩

/-- The architectural state, the one a command that does not end `OK` leaves alone (60_exceptions.md R175). -/
def SameArch (s t : State) : Prop :=
  t.magic = s.magic ∧ t.magicV = s.magicV ∧ t.addr = s.addr ∧ t.addrV = s.addrV

/-- `MAGIC` and `MAGIC_V` unchanged. -/
def SameMagic (s t : State) : Prop := t.magic = s.magic ∧ t.magicV = s.magicV

/-- `ADDR` and `ADDR_V` unchanged. -/
def SameAddr (s t : State) : Prop := t.addr = s.addr ∧ t.addrV = s.addrV

/-- `DMAGIC` unchanged, the buffer the same at every byte, and the host's moves to come the same. -/
def SameScratch (s t : State) : Prop :=
  t.dmagic = s.dmagic ∧ t.img = s.img ∧ (∀ a, t.img.read a = s.img.read a) ∧ t.pending = s.pending

/-- The command gave the one response `r` and no other (60_exceptions.md R182). -/
def Responds (s t : State) (r : Response) : Prop := t.responses = s.responses ++ [r]

/-- The record has the shape and width R65 fixes for the opcode (30_encoding.md R65, R72). -/
def fits : Opcode → OperandRecord → Bool
  | .ksInit, .word _ => true
  | .ksNext, .empty => true
  | .addrMask, .word _ => true
  | .scrDword, .pair _ _ => true
  | .dscrDword, .pair _ _ => true
  | .packLe32, .bytes4 _ _ _ _ => true
  | .unpackLe32, .word _ => true
  | .addrLoad, .word _ => true
  | .encBlock, .bytes bs => bs.length == 1024
  | .decBlock, .bytes bs => bs.length == 2048
  | _, _ => false

/-- The host may present the move: a reset, an illegal word (whatever stands beside it), or a legal word with the
operand record its opcode fixes. -/
def presentable : HostMove → Bool
  | .reset => true
  | .issue c =>
    match decodeOpcode c.word with
    | none => true
    | some op => fits op c.operands

/-- The host keeps the protocol in all its moves to come. -/
def ProtocolOk (s : State) : Prop := ∀ m ∈ s.pending, presentable m = true

/-- The buffer keeps its canonical form, and holds either no byte (nothing has filled it) or every byte of the image
(10_state.md R26: a block command fills the buffer completely). -/
def BufferInv (s : State) : Prop :=
  Memory.wf s.img ∧ (s.img = [] ∨ ∀ a, a < 2048 → (s.img.read a).isSome = true)

/-- Two states that show the same and will take the same moves: they may differ in the value of a register whose valid
bit is 0, in `DMAGIC` and in the buffer (R194). -/
def SameView (s t : State) : Prop :=
  observe t = observe s ∧ t.magicV = s.magicV ∧ t.addrV = s.addrV ∧ t.pending = s.pending

/-- `MAGIC`, where it is valid, is a multiple of 512 generator steps after `SEED0`: the states that a stream begun with
`ENC_BLOCK.FIRST` meets between blocks (40_keystream.md R88). -/
def OnStreamLattice (s : State) : Prop := s.magicV = true → ∃ k, s.magic = lcgPow (512 * k) 0x6569B868

/-- The next move neither seeds nor steps the generator by itself: it is no `KS_INIT` and no `KS_NEXT`. -/
def NextMoveIsNoGeneratorCommand (s : State) : Prop :=
  ∀ c rest, s.pending = .issue c :: rest → decode c ≠ .command .ksNext ∧ ∀ seed, decode c ≠ .command (.ksInit seed)

/-- From `s` to `t` and from `s'` to `t'` the same registers and buffer bytes are written, with the same values: each is
either left alone on both sides, or the same after both. -/
def SameWrites (s t s' t' : State) : Prop :=
  ((SameMagic s t ∧ SameMagic s' t') ∨ (t'.magic = t.magic ∧ t'.magicV = t.magicV)) ∧
  ((SameAddr s t ∧ SameAddr s' t') ∨ (t'.addr = t.addr ∧ t'.addrV = t.addrV)) ∧
  ((t.dmagic = s.dmagic ∧ t'.dmagic = s'.dmagic) ∨ t'.dmagic = t.dmagic) ∧
  (((∀ a, t.img.read a = s.img.read a) ∧ ∀ a, t'.img.read a = s'.img.read a) ∨ ∀ a, t'.img.read a = t.img.read a)

/-- How many of the moves issue a command. -/
def issued : List HostMove → Nat
  | [] => 0
  | .issue _ :: rest => issued rest + 1
  | .reset :: rest => issued rest

/-- The buffer reads as `bs` from byte 0 upwards and holds nothing else. -/
def BufferHolds (t : State) (bs : List Byte) : Prop := ∀ a, t.img.read a = bs[a]?

/-! ### The rules' own formulas, written without the machine's operations -/

/-- Byte `a` of a byte sequence, 0 beyond its end. -/
def byteAt (bs : List Byte) (a : Nat) : Byte := bs.getD a 0

/-- The little-endian word `i` of the bytes `b` gives (20_memory.md R41), by value. -/
def leWord (b : Nat → Byte) (i : Nat) : Word :=
  BitVec.ofNat 32 ((b (4 * i)).toNat + 2 ^ 8 * (b (4 * i + 1)).toNat + 2 ^ 16 * (b (4 * i + 2)).toNat +
    2 ^ 24 * (b (4 * i + 3)).toNat)

/-- Byte `a` of the image whose words `w` gives: bits `8 * (a mod 4) + 7` down to `8 * (a mod 4)` of word `a div 4`
(20_memory.md R43), by value. -/
def leByte (w : Nat → Word) (a : Nat) : Byte := BitVec.ofNat 8 ((w (a / 4)).toNat / 256 ^ (a % 4))

/-- The mask of R81, by value. -/
def maskSpec (s : Word) : Word := BitVec.ofNat 32 (0xAA * (s.toNat % 2 ^ 16) % 0x7673 % 2 ^ 16)

/-- R100. -/
def scrSpec (i : Nat) (w r : Word) : Word :=
  if i = 6 then w else if i % 16 = 2 then (w ^^^ r).rotateLeft 25 else w ^^^ r

/-- R130. -/
def dscrSpec (i : Nat) (w r : Word) : Word :=
  if i = 6 then w else if i % 16 = 2 then w.rotateLeft 7 ^^^ r else w ^^^ r

/-- Byte `a` of `PlainImage(P)` (R103). -/
def plainByteSpec (p : List Byte) (a : Nat) : Byte := if 318 ≤ a ∧ a ≤ 1341 then byteAt p (a - 318) else 0

/-- Plain word `i` after steps 1, 2 and 4 of R105. -/
def plainWordSpec (addr seed : Word) (p : List Byte) (i : Nat) : Word :=
  if i = 0 then 1024
  else if i = 1 then addr - maskSpec seed
  else if i = 3 then 286
  else if i = 6 then seed
  else leWord (plainByteSpec p) i

/-- The seed a block captures: `SEED0` with `F = 1`, else `MAGIC` (R105, R106). -/
def capturedSeed (f : Bool) (s : State) : Word := if f then 0x6569B868 else s.magic

/-- What R132 computes from a wire block: the seed of its generator, each reversed word, and the header fields. -/
def decodeSeedSpec (blk : List Byte) : Word :=
  if leWord (byteAt blk) 6 = 0 then 1 else leWord (byteAt blk) 6

/-- Decoded word `i`, word 1 after step 4 (R132, R133). -/
def decodedWordSpec (blk : List Byte) (i : Nat) : Word :=
  let w := dscrSpec i (leWord (byteAt blk) i) (lcgPow (i + 1) (decodeSeedSpec blk))
  if i = 1 then w + maskSpec (leWord (byteAt blk) 6) else w

/-- `start_byte` (R134). -/
def startByteSpec (blk : List Byte) : Nat := (decodedWordSpec blk 3).toNat % 512 + 32

/-- The slice stays inside the block, the sum unbounded (R135). -/
def SliceFits (blk : List Byte) : Prop := startByteSpec blk + (decodedWordSpec blk 0).toNat ≤ 2048

/-- The payload slice (R136). -/
def payloadSpec (blk : List Byte) : List Byte :=
  (List.range (decodedWordSpec blk 0).toNat).map fun k => leByte (decodedWordSpec blk) (startByteSpec blk + k)

/-- The response to `DEC_BLOCK` of a block whose slice fits (R132). -/
def decodedResponse (blk : List Byte) : Response :=
  ⟨.ok, .decoded (decodedWordSpec blk 1) (decodedWordSpec blk 0) (BitVec.ofNat 32 (startByteSpec blk)) (payloadSpec blk)⟩

/-- The response to `DEC_BLOCK` of a block whose slice does not fit (R135). -/
def malformedResponse (blk : List Byte) : Response :=
  ⟨.malformedBlock,
    .header (decodedWordSpec blk 1) (decodedWordSpec blk 0) (BitVec.ofNat 32 (startByteSpec blk))⟩

end Sys2Proof.Safety
end

