-- ==== Sys2Proof/Certificates/Slice0/Obligations.lean ====
section
/-! DEFINITION. The statements for the provers. Each docstring names the rule it formalises. -/

open Sys2Proof Sys2Proof.Machine Sys2Proof.Safety

/-! ### Reset and the step -/

/-- 10_state.md section 4 (R31), 70_reset_and_hazards.md section 1: after reset both valid bits are 0, so neither register
shows a value, and no buffer byte holds one. The zeros that MAGIC, ADDR and DMAGIC hold are the model's (log entries 1, 2)
and are not stated. -/
def Obligations.ResetLeavesNothingValid : Prop :=
  State.reset.magicV = false ∧ State.reset.addrV = false ∧ observe State.reset = ⟨[], none, none⟩ ∧
    ∀ a, State.reset.img.read a = none

/-- 60_exceptions.md section 4, 70_reset_and_hazards.md section 1: reset as a move of the host. That no buffer byte holds a
value afterwards is the model's choice (log entry 3: DESIGN CHOICE; R31 says unspecified), and that the responses the host
already holds stay is too (log entry 4). -/
def Obligations.ResetMoveInvalidatesBothRegisters : Prop :=
  ∀ (s : State) (rest : List HostMove), s.pending = .reset :: rest →
    ∃ t, step s = .next t ∧ t.magicV = false ∧ t.addrV = false ∧ (∀ a, t.img.read a = none) ∧ t.pending = rest ∧
      t.responses = s.responses ∧ observe t = ⟨s.responses, none, none⟩

/-- 60_exceptions.md R182, 20_memory.md R48: a step on a command is that command's execution, with the move taken. With
nothing pending the block holds its state (R193). -/
def Obligations.StepRunsTheDecodedCommand : Prop :=
  (∀ (s : State) (c : Command) (rest : List HostMove) (i : Instr), s.pending = .issue c :: rest →
    decode c = .command i → i.wf = true → step s = exec i { s with pending := rest }) ∧
  ∀ s : State, s.pending = [] → step s = .next s

/-- R69, R70, R172: the illegal words are those with an unassigned opcode or a reserved bit set. Whatever the state and
whatever stands beside the word, the command ends ILLEGAL_COMMAND with no result and changes nothing. -/
def Obligations.IllegalWordsEndIllegalCommand : Prop :=
  (∀ cmd : Word, decodeOpcode cmd = none ↔
    ¬ ((cmd.toNat % 256 ∈ [0x01, 0x02, 0x03, 0x06, 0x07, 0x08, 0x11] ∧ cmd.toNat / 2 ^ 8 = 0) ∨
       (cmd.toNat % 256 = 0x10 ∧ cmd.toNat / 2 ^ 9 = 0) ∨
       (cmd.toNat % 256 ∈ [0x04, 0x05] ∧ cmd.toNat / 2 ^ 17 = 0))) ∧
  ∀ (s : State) (c : Command) (rest : List HostMove), s.pending = .issue c :: rest → decodeOpcode c.word = none →
    ∃ t, step s = .next t ∧ SameArch s t ∧ t.dmagic = s.dmagic ∧ t.img = s.img ∧
      (∀ a, t.img.read a = s.img.read a) ∧ t.pending = rest ∧ Responds s t ⟨.illegalCommand, .none⟩ ∧
      Status.illegalCommand.code = 1

/-! ### Encoding -/

/-- 30_encoding.md R61, R65, R67, R68, R72: the decoder reads back every command at every operand value. -/
def Obligations.DecodeInvertsEncode : Prop := ∀ i : Instr, i.wf = true → decode (encode i) = .command i

/-- 30_encoding.md R67, R68, R72: a transaction that decodes is the encoding of what it decodes to, so no bit of it is
dropped and each command has one transaction. -/
def Obligations.EncodeInvertsDecode : Prop :=
  ∀ (c : Command) (i : Instr), decode c = .command i → encode i = c ∧ i.wf = true

/-- 30_encoding.md R67, 95_test_vectors.md L2: words written out from the opcode map decode to the commands they stand
for, one at least of each family. -/
def Obligations.WordsOfTheMapDecode : Prop :=
  ∀ (w r : Word) (b0 b1 b2 b3 : Byte) (p blk : List Byte), p.length = 1024 → blk.length = 2048 →
    decode ⟨0x00000001, .word w⟩ = .command (.ksInit w) ∧
    decode ⟨0x00000002, .empty⟩ = .command .ksNext ∧
    decode ⟨0x00000003, .word w⟩ = .command (.addrMask w) ∧
    decode ⟨0x00000204, .pair w r⟩ = .command (.scrDword 2 w r) ∧
    decode ⟨0x0001FF05, .pair w r⟩ = .command (.dscrDword 511 w r) ∧
    decode ⟨0x00000006, .bytes4 b0 b1 b2 b3⟩ = .command (.packLe32 b0 b1 b2 b3) ∧
    decode ⟨0x00000007, .word w⟩ = .command (.unpackLe32 w) ∧
    decode ⟨0x00000008, .word w⟩ = .command (.addrLoad w) ∧
    decode ⟨0x00000010, .bytes p⟩ = .command (.encBlock false p) ∧
    decode ⟨0x00000110, .bytes p⟩ = .command (.encBlock true p) ∧
    decode ⟨0x00000011, .bytes blk⟩ = .command (.decBlock blk)

/-- 30_encoding.md section 7 (R73): the assembler rejects exactly the statements with an operand that does not fit its
field; what it accepts is the statement's own command with its operands in their places, and can be presented. -/
def Obligations.AssemblerRejectsWhatDoesNotFit : Prop :=
  (∀ (st : Statement) (i : Instr), assemble st = some i → i.wf = true ∧ decode (encode i) = .command i) ∧
  assemble .ksNext = some .ksNext ∧
  (∀ n, n < 2 ^ 32 → assemble (.ksInit n) = some (.ksInit (BitVec.ofNat 32 n)) ∧
    assemble (.addrMask n) = some (.addrMask (BitVec.ofNat 32 n)) ∧
    assemble (.unpackLe32 n) = some (.unpackLe32 (BitVec.ofNat 32 n)) ∧
    assemble (.addrLoad n) = some (.addrLoad (BitVec.ofNat 32 n))) ∧
  (∀ i w r, i ≤ 511 → w < 2 ^ 32 → r < 2 ^ 32 →
    assemble (.scrDword i w r) = some (.scrDword (BitVec.ofNat 9 i) (BitVec.ofNat 32 w) (BitVec.ofNat 32 r)) ∧
    assemble (.dscrDword i w r) = some (.dscrDword (BitVec.ofNat 9 i) (BitVec.ofNat 32 w) (BitVec.ofNat 32 r))) ∧
  (∀ b0 b1 b2 b3, b0 < 256 → b1 < 256 → b2 < 256 → b3 < 256 → assemble (.packLe32 b0 b1 b2 b3) =
    some (.packLe32 (BitVec.ofNat 8 b0) (BitVec.ofNat 8 b1) (BitVec.ofNat 8 b2) (BitVec.ofNat 8 b3))) ∧
  (∀ buf, buf.length = 1024 → assemble (.encBlock buf) = some (.encBlock false buf) ∧
    assemble (.encBlockFirst buf) = some (.encBlock true buf)) ∧
  (∀ buf, buf.length = 2048 → assemble (.decBlock buf) = some (.decBlock buf)) ∧
  (∀ n, assemble (.ksInit n) = none ↔ 2 ^ 32 ≤ n) ∧
  (∀ n, assemble (.addrMask n) = none ↔ 2 ^ 32 ≤ n) ∧
  (∀ n, assemble (.unpackLe32 n) = none ↔ 2 ^ 32 ≤ n) ∧
  (∀ n, assemble (.addrLoad n) = none ↔ 2 ^ 32 ≤ n) ∧
  (∀ i w r, assemble (.scrDword i w r) = none ↔ 511 < i ∨ 2 ^ 32 ≤ w ∨ 2 ^ 32 ≤ r) ∧
  (∀ i w r, assemble (.dscrDword i w r) = none ↔ 511 < i ∨ 2 ^ 32 ≤ w ∨ 2 ^ 32 ≤ r) ∧
  (∀ b0 b1 b2 b3, assemble (.packLe32 b0 b1 b2 b3) = none ↔ 256 ≤ b0 ∨ 256 ≤ b1 ∨ 256 ≤ b2 ∨ 256 ≤ b3) ∧
  (∀ buf, assemble (.encBlock buf) = none ↔ buf.length ≠ 1024) ∧
  (∀ buf, assemble (.encBlockFirst buf) = none ↔ buf.length ≠ 1024) ∧
  (∀ buf, assemble (.decBlock buf) = none ↔ buf.length ≠ 2048)

/-- 30_encoding.md section 7 (R73), 60_exceptions.md R186: a word printed as `0x` and eight hexadecimal digits is read back
as that number by the assembler. -/
def Obligations.HexadecimalNumbersReadBack : Prop :=
  ∀ w : Word, readNumber ('0' :: 'x' :: hex8 w) = some w.toNat

/-! ### Functions -/

/-- 00_scope.md section 4 (R10): rotation by value and by bit, and the law of the two amounts. The direction is one the
spec marks as its own: "The definition above is the usual meaning of the name [from general knowledge, not in source]"
(log entry 7). -/
def Obligations.RotationRotatesLeft : Prop :=
  (∀ x, rotl32 x 0 = x) ∧
  (∀ (x : Word) (n : Nat), 1 ≤ n → n ≤ 31 →
    (rotl32 x n).toNat = (x.toNat * 2 ^ n ||| x.toNat / 2 ^ (32 - n)) % 2 ^ 32) ∧
  (∀ (x : Word) (n k : Nat), n < 32 → k < 32 → (rotl32 x n).getLsbD k = x.getLsbD ((k + 32 - n) % 32)) ∧
  ∀ x, rotl32 (rotl32 x 25) 7 = x

/-- R11. -/
def Obligations.NormReplacesZeroByOne : Prop := Machine.norm 0 = 1 ∧ ∀ s : Word, s ≠ 0 → Machine.norm s = s

/-- R80: the generator's step by value, and its powers. -/
def Obligations.GeneratorStepIsTheRecurrence : Prop :=
  (∀ s : Word, (lcg s).toNat = (0x7FF8A3ED * s.toNat + 0x2AA01D31) % 2 ^ 32) ∧ (∀ s, lcgPow 0 s = s) ∧
    ∀ n s, lcgPow (n + 1) s = lcg (lcgPow n s)

/-- 40_keystream.md section 3 (R87, which the spec marks as its own inference "[derived: from rule R80]"): the generator has one cycle, of length 2^32; every state occurs once a period, and block seeds repeat after
2^23 blocks. -/
def Obligations.GeneratorHasFullPeriod : Prop :=
  (∀ (s : Word) (n : Nat), lcgPow n s = s ↔ 2 ^ 32 ∣ n) ∧
  (∀ s t : Word, ∃ n, (n < 2 ^ 32 ∧ lcgPow n s = t) ∧ ∀ m, m < 2 ^ 32 ∧ lcgPow m s = t → m = n) ∧
  ∀ (s : Word) (k : Nat), lcgPow (512 * k) s = s ↔ 2 ^ 23 ∣ k

/-- 40_keystream.md section 3 (R88, which the spec marks as its own inference "[derived: from rule R80 and rule R82, by
computation]"): when the orbit of SEED0 meets 0, that ENC_BLOCK.FIRST enters the 512-step lattice of SEED0 from any state in
which it ends OK, that a step which is no KS_INIT and no KS_NEXT keeps MAGIC on it, and that no block begun there captures
the seed 0. -/
def Obligations.StandardStreamNeverCapturesZero : Prop :=
  (∀ n, lcgPow n 0x6569B868 = 0 ↔ n % 2 ^ 32 = 1596896456) ∧
  (∀ (s : State) (c : Command) (rest : List HostMove) (p : List Byte), s.pending = .issue c :: rest →
    decode c = .command (.encBlock true p) → s.addrV = true →
    ∃ t blk, step s = .next t ∧ Responds s t ⟨.ok, .block blk⟩ ∧ t.magicV = true ∧ OnStreamLattice t) ∧
  (∀ s t : State, NextMoveIsNoGeneratorCommand s → OnStreamLattice s → step s = .next t → OnStreamLattice t) ∧
  ∀ (f : Bool) (s : State), OnStreamLattice s → f = true ∨ s.magicV = true → capturedSeed f s ≠ 0

/-- 40_keystream.md section 3 (R89, which the spec marks as its own inference "[derived: from rule R80, by
computation]"): the first-block seed on the orbit of 1, and the shift of the keystream. -/
def Obligations.FirstSeedIsOnTheOrbitOfOne : Prop :=
  lcgPow 7 1 = 0x6569B868 ∧ ∀ i, keystream 0x6569B868 i = keystream 1 (i + 7)

/-- R45: the classes of the 512 indices. -/
def Obligations.EveryIndexHasOneClass : Prop :=
  (∀ i, wordClass i = .seed ↔ i = 6) ∧ (∀ i, wordClass i = .rotated ↔ i % 16 = 2) ∧
  (∀ i, wordClass i = .plain ↔ i ≠ 6 ∧ i % 16 ≠ 2) ∧
  ((List.range 512).filter fun i => wordClass i == .seed) = [6] ∧
  ((List.range 512).filter fun i => wordClass i == .rotated) = (List.range 32).map (fun k => 16 * k + 2) ∧
  ((List.range 512).filter fun i => wordClass i == .rotated).length = 32 ∧
  ((List.range 512).filter fun i => wordClass i == .plain).length = 479

/-- 42_block_decoder.md section 3 (R138, which the spec marks as its own inference "[derived: from 41_block_encoder.md
rule R100, rule R130 and 00_scope.md rule R10]"): each transform undoes the other, at every index and for every keystream value. -/
def Obligations.WordTransformsAreMutuallyInverse : Prop :=
  ∀ (i : Nat) (w r : Word), dscr i (scr i w r) r = w ∧ scr i (dscr i w r) r = w

/-- 43_converters.md (R162, which the spec marks as its own inference "[derived: from rule R160, rule R161 and
20_memory.md rule R41]"): the converters are mutually inverse, on one dword and block-wide. -/
def Obligations.ConvertersAreMutuallyInverse : Prop :=
  (∀ w : Word, le32 (byteOf w 0) (byteOf w 1) (byteOf w 2) (byteOf w 3) = w) ∧
  (∀ b0 b1 b2 b3 : Byte, unLe32 (le32 b0 b1 b2 b3) = [b0, b1, b2, b3]) ∧
  (∀ bs : List Byte, bs.length = 2048 → wordsToBytes (bytesToWords bs) = bs) ∧
  ∀ ws : List Word, ws.length = 512 → bytesToWords (wordsToBytes ws) = ws

/-- R103: the plain image. -/
def Obligations.PlainImageHoldsThePayload : Prop :=
  ∀ p : List Byte, p.length = 1024 →
    (plainImage p).length = 2048 ∧ (∀ a, a < 2048 → (plainImage p)[a]? = some (plainByteSpec p a)) ∧
    ∀ i, i < 512 → (bytesToWords (plainImage p))[i]? = some (leWord (plainByteSpec p) i)

/-- 00_scope.md section 4 (R12): inside the image MemRead gives back what MemWrite stored, every byte outside reads as
before, and the canonical form is kept. That of a value at or above `256 ^ n` the low `n` bytes are stored, so that it
reads back modulo `256 ^ n`, is the model's choice (log entry 9: DESIGN CHOICE), since R12 is silent on it. That an access
outside the image faults is the model's reading of 'defined only' (log entry 3). -/
def Obligations.MemReadGivesBackMemWrite : Prop :=
  ∀ (m : Memory) (a n v : Nat),
    (a + n ≤ 2048 → m.wf → ∃ m', memWrite m a n v = .ok m' ∧ memRead m' a n = .ok (v % 256 ^ n) ∧ m'.wf ∧
      ∀ x, x < a ∨ a + n ≤ x → m'.read x = m.read x) ∧
    (2048 < a + n → memWrite m a n v = .error (.bufferRange a n) ∧ memRead m a n = .error (.bufferRange a n))

/-! ### The commands -/

/-- R83. -/
def Obligations.KsInitSeedsTheGenerator : Prop :=
  ∀ (seed : Word) (s : State), decode ⟨0x00000001, .word seed⟩ = .command (.ksInit seed) ∧
    ∃ t, exec (.ksInit seed) s = .next t ∧ t.magic = (if seed = 0 then 1 else seed) ∧ t.magicV = true ∧
      SameAddr s t ∧ SameScratch s t ∧ Responds s t ⟨.ok, .none⟩

/-- R84: with MAGIC valid the generator steps and the new state is the result; otherwise UNINITIALISED and nothing
changes. That no state maps to itself is R84's own consequence of R80, proved here from the step's value. -/
def Obligations.KsNextStepsTheGenerator : Prop :=
  decode ⟨0x00000002, .empty⟩ = .command .ksNext ∧
  (∀ s : State, s.magicV = true → ∃ t, exec .ksNext s = .next t ∧
    t.magic.toNat = (0x7FF8A3ED * s.magic.toNat + 0x2AA01D31) % 2 ^ 32 ∧ t.magic ≠ s.magic ∧ t.magicV = true ∧
    SameAddr s t ∧ SameScratch s t ∧ Responds s t ⟨.ok, .word t.magic⟩) ∧
  ∀ s : State, s.magicV = false → ∃ t, exec .ksNext s = .next t ∧ SameArch s t ∧ SameScratch s t ∧
    Responds s t ⟨.uninitialised, .none⟩

/-- R86, R81: the mask by value. Its zeros, its largest value, and that only the low half of the seed counts are R86's own
consequences of R81, proved here from that value. -/
def Obligations.AddrMaskReturnsTheMask : Prop :=
  (∀ (seed : Word) (s : State), decode ⟨0x00000003, .word seed⟩ = .command (.addrMask seed) ∧
    ∃ t m, exec (.addrMask seed) s = .next t ∧ SameArch s t ∧ SameScratch s t ∧ Responds s t ⟨.ok, .word m⟩ ∧
      m.toNat = 0xAA * (seed.toNat % 2 ^ 16) % 0x7673 % 2 ^ 16 ∧ m.toNat ≤ 0x7672 ∧
      (m = 0 ↔ seed.toNat % 2 ^ 16 = 0x0000 ∨ seed.toNat % 2 ^ 16 = 0x7673 ∨ seed.toNat % 2 ^ 16 = 0xECE6)) ∧
  (∃ seed, amask seed = 0x7672) ∧
  ∀ x y : Word, x.toNat % 2 ^ 16 = y.toNat % 2 ^ 16 → amask x = amask y

/-- R101, R100, at every index and for all words. The rotation is R10's (log entry 7). -/
def Obligations.ScrDwordAppliesTheForwardTransform : Prop :=
  ∀ (i : BitVec 9) (w r : Word) (s : State),
    decode ⟨BitVec.ofNat 32 (0x04 + 2 ^ 8 * i.toNat), .pair w r⟩ = .command (.scrDword i w r) ∧
    ∃ t, exec (.scrDword i w r) s = .next t ∧ SameArch s t ∧ SameScratch s t ∧
      Responds s t ⟨.ok, .word (scrSpec i.toNat w r)⟩

/-- R131, R130, at every index and for all words. The rotation is R10's (log entry 7). -/
def Obligations.DscrDwordAppliesTheReverseTransform : Prop :=
  ∀ (i : BitVec 9) (w r : Word) (s : State),
    decode ⟨BitVec.ofNat 32 (0x05 + 2 ^ 8 * i.toNat), .pair w r⟩ = .command (.dscrDword i w r) ∧
    ∃ t, exec (.dscrDword i w r) s = .next t ∧ SameArch s t ∧ SameScratch s t ∧
      Responds s t ⟨.ok, .word (dscrSpec i.toNat w r)⟩

/-- R160. -/
def Obligations.PackLe32PacksLittleEndian : Prop :=
  ∀ (b0 b1 b2 b3 : Byte) (s : State),
    decode ⟨0x00000006, .bytes4 b0 b1 b2 b3⟩ = .command (.packLe32 b0 b1 b2 b3) ∧
    ∃ t w, exec (.packLe32 b0 b1 b2 b3) s = .next t ∧ SameArch s t ∧ SameScratch s t ∧
      Responds s t ⟨.ok, .word w⟩ ∧
      w.toNat = b0.toNat + 2 ^ 8 * b1.toNat + 2 ^ 16 * b2.toNat + 2 ^ 24 * b3.toNat

/-- R161. -/
def Obligations.UnpackLe32UnpacksLittleEndian : Prop :=
  ∀ (w : Word) (s : State), decode ⟨0x00000007, .word w⟩ = .command (.unpackLe32 w) ∧
    ∃ t, exec (.unpackLe32 w) s = .next t ∧ SameArch s t ∧ SameScratch s t ∧
      ∃ b0 b1 b2 b3 : Byte, Responds s t ⟨.ok, .bytes4 b0 b1 b2 b3⟩ ∧ b0.toNat = w.toNat % 256 ∧
        b1.toNat = w.toNat / 2 ^ 8 % 256 ∧ b2.toNat = w.toNat / 2 ^ 16 % 256 ∧ b3.toNat = w.toNat / 2 ^ 24 % 256

/-- R102. -/
def Obligations.AddrLoadSetsTheRunningAddress : Prop :=
  ∀ (a : Word) (s : State), decode ⟨0x00000008, .word a⟩ = .command (.addrLoad a) ∧
    ∃ t, exec (.addrLoad a) s = .next t ∧ t.addr = a ∧ t.addrV = true ∧ SameMagic s t ∧ SameScratch s t ∧
      Responds s t ⟨.ok, .none⟩

/-- R105: UNINITIALISED with nothing changed unless both registers it reads are valid; otherwise the wire
block word by word, the generator stepped 512 times, and the running address advanced by 1024 modulo 2^32. -/
def Obligations.EncBlockEncodesTheChunk : Prop :=
  ∀ (f : Bool) (p : List Byte) (s : State), p.length = 1024 →
    decode ⟨if f then 0x00000110 else 0x00000010, .bytes p⟩ = .command (.encBlock f p) ∧
    ((f = false ∧ s.magicV = false) ∨ s.addrV = false →
      ∃ t, exec (.encBlock f p) s = .next t ∧ SameArch s t ∧ SameScratch s t ∧
        Responds s t ⟨.uninitialised, .none⟩) ∧
    ((f = true ∨ s.magicV = true) → s.addrV = true →
      ∃ t blk, exec (.encBlock f p) s = .next t ∧ Responds s t ⟨.ok, .block blk⟩ ∧ blk.length = 2048 ∧
        (∀ i, i < 512 → leWord (byteAt blk) i =
          scrSpec i (plainWordSpec s.addr (capturedSeed f s) p i) (lcgPow (i + 1) (capturedSeed f s))) ∧
        t.magic = lcgPow 512 (capturedSeed f s) ∧ t.magicV = true ∧
        t.addr.toNat = (s.addr.toNat + 1024) % 2 ^ 32 ∧ t.addrV = true ∧
        t.dmagic = s.dmagic ∧ t.pending = s.pending)

/-- 41_block_encoder.md section 3 (R107, R108, which the spec marks as its own inferences "[derived: from rule R105]"):
the header words on the wire, and the padding words, which carry the bare keystream. -/
def Obligations.WireBlockClosedForm : Prop :=
  ∀ (f : Bool) (p : List Byte) (s : State), p.length = 1024 → (f = true ∨ s.magicV = true) → s.addrV = true →
    ∃ t blk, exec (.encBlock f p) s = .next t ∧ Responds s t ⟨.ok, .block blk⟩ ∧
      leWord (byteAt blk) 0 = 0x400 ^^^ lcgPow 1 (capturedSeed f s) ∧
      leWord (byteAt blk) 1 = (s.addr - maskSpec (capturedSeed f s)) ^^^ lcgPow 2 (capturedSeed f s) ∧
      leWord (byteAt blk) 2 = (lcgPow 3 (capturedSeed f s)).rotateLeft 25 ∧
      leWord (byteAt blk) 3 = 0x11E ^^^ lcgPow 4 (capturedSeed f s) ∧
      leWord (byteAt blk) 4 = lcgPow 5 (capturedSeed f s) ∧
      leWord (byteAt blk) 5 = lcgPow 6 (capturedSeed f s) ∧
      leWord (byteAt blk) 6 = capturedSeed f s ∧
      (∀ i, (7 ≤ i ∧ i ≤ 78) ∨ (336 ≤ i ∧ i ≤ 511) → leWord (byteAt blk) i =
        if i % 16 = 2 then (lcgPow (i + 1) (capturedSeed f s)).rotateLeft 25 else lcgPow (i + 1) (capturedSeed f s)) ∧
      leWord (byteAt blk) 511 = t.magic

/-- R132 to R136: the header fields from the reversed words; MALFORMED_BLOCK with them alone when the slice leaves the
block, the sum unbounded; otherwise the payload byte by byte. MAGIC, MAGIC_V, ADDR and ADDR_V stay. -/
def Obligations.DecBlockDecodesTheBlock : Prop :=
  ∀ (blk : List Byte) (s : State), blk.length = 2048 →
    decode ⟨0x00000011, .bytes blk⟩ = .command (.decBlock blk) ∧
    ∃ t, exec (.decBlock blk) s = .next t ∧ SameArch s t ∧ t.dmagic = lcgPow 512 (decodeSeedSpec blk) ∧
      t.pending = s.pending ∧
      32 ≤ startByteSpec blk ∧ startByteSpec blk ≤ 543 ∧
      if 2048 < startByteSpec blk + (decodedWordSpec blk 0).toNat then
        Responds s t ⟨.malformedBlock,
          .header (decodedWordSpec blk 1) (decodedWordSpec blk 0) (BitVec.ofNat 32 (startByteSpec blk))⟩
      else
        ∃ payload, Responds s t ⟨.ok, .decoded (decodedWordSpec blk 1) (decodedWordSpec blk 0)
            (BitVec.ofNat 32 (startByteSpec blk)) payload⟩ ∧
          payload.length = (decodedWordSpec blk 0).toNat ∧ payload.length ≤ 2016 ∧
          ∀ k, k < payload.length → payload[k]? = some (leByte (decodedWordSpec blk) (startByteSpec blk + k))

/-- What the two block commands leave in the buffer: the wire block after ENC_BLOCK, the decoded image after DEC_BLOCK,
whether it ends OK or MALFORMED_BLOCK. The model's choice (log entry 3): the spec says any value. -/
def Obligations.BlockCommandsLeaveTheirImageInTheBuffer : Prop :=
  (∀ (f : Bool) (p : List Byte) (s : State), p.length = 1024 → (f = true ∨ s.magicV = true) → s.addrV = true →
    ∃ t blk, exec (.encBlock f p) s = .next t ∧ Responds s t ⟨.ok, .block blk⟩ ∧ BufferHolds t blk) ∧
  ∀ (blk : List Byte) (s : State), blk.length = 2048 →
    ∃ t, exec (.decBlock blk) s = .next t ∧ (∀ a, a < 2048 → t.img.read a = some (leByte (decodedWordSpec blk) a)) ∧
      ∀ a, 2048 ≤ a → t.img.read a = none

/-- The width rule of 30_encoding.md R72 at the model's boundary (log entry 5): a block command given another number of
bytes is refused by name. -/
def Obligations.BlockOperandOfAnotherWidthIsRefused : Prop :=
  (∀ (f : Bool) (p : List Byte) (s : State), p.length ≠ 1024 → exec (.encBlock f p) s = .refused .operandWidth) ∧
  ∀ (blk : List Byte) (s : State), blk.length ≠ 2048 → exec (.decBlock blk) s = .refused .operandWidth

/-! ### Statuses -/

/-- R173: the three cases of UNINITIALISED, and no other. Every other command gives the same response in any two states and
writes the same values into the same registers and buffer bytes, so it reads neither MAGIC nor ADDR. -/
def Obligations.UninitialisedExactlyWhenAnInvalidRegisterIsRead : Prop :=
  ∀ (i : Instr) (s : State), i.wf = true → ∃ t r, exec i s = .next t ∧ Responds s t r ∧
    (r.status = .uninitialised ↔
      (i = .ksNext ∧ s.magicV = false) ∨ (∃ p, i = .encBlock false p ∧ s.magicV = false) ∨
        ∃ f p, i = .encBlock f p ∧ s.addrV = false) ∧
    (r.status = .uninitialised → r.result = .none) ∧
    (i ≠ .ksNext → (∀ f p, i ≠ .encBlock f p) →
      ∀ s' : State, ∃ t', exec i s' = .next t' ∧ Responds s' t' r ∧ SameWrites s t s' t')

/-- R174: MALFORMED_BLOCK from DEC_BLOCK alone, exactly when the slice leaves the block, with the three header fields. -/
def Obligations.MalformedExactlyWhenTheSliceLeavesTheBlock : Prop :=
  ∀ (i : Instr) (s : State), i.wf = true → ∃ t r, exec i s = .next t ∧ Responds s t r ∧
    (r.status = .malformedBlock ↔
      ∃ blk, i = .decBlock blk ∧ 2048 < startByteSpec blk + (decodedWordSpec blk 0).toNat) ∧
    ∀ blk, i = .decBlock blk → r.status = .malformedBlock →
      r.result = .header (decodedWordSpec blk 1) (decodedWordSpec blk 0) (BitVec.ofNat 32 (startByteSpec blk))

/-- R175: a step whose response is not OK leaves the architectural state as it was; a command gives its status in its own
response; and no earlier response changes what a step does, so no status is deferred, accumulated or sticky. -/
def Obligations.FailingCommandLeavesTheArchitecturalState : Prop :=
  (∀ (s t : State) (r : Response), step s = .next t → Responds s t r → r.status ≠ .ok → SameArch s t) ∧
  (∀ (s t : State) (c : Command) (rest : List HostMove), s.pending = .issue c :: rest → step s = .next t →
    ∃ r, Responds s t r) ∧
  ∀ (s t : State) (r : Response) (rs : List Response), step s = .next t → Responds s t r →
    step { s with responses := rs } = .next { t with responses := rs ++ [r] }

/-! ### What each command leaves alone -/

/-- 10_state.md R30, the write column: only KS_INIT, KS_NEXT and ENC_BLOCK touch MAGIC, only ADDR_LOAD and ENC_BLOCK touch
ADDR, only DEC_BLOCK touches DMAGIC, only the block commands touch the buffer. -/
def Obligations.OnlyTheListedCommandsWriteEachRegister : Prop :=
  ∀ (i : Instr) (s : State), i.wf = true → ∃ t, exec i s = .next t ∧ t.pending = s.pending ∧
    ((∀ seed, i ≠ .ksInit seed) → i ≠ .ksNext → (∀ f p, i ≠ .encBlock f p) → SameMagic s t) ∧
    ((∀ a, i ≠ .addrLoad a) → (∀ f p, i ≠ .encBlock f p) → SameAddr s t) ∧
    ((∀ blk, i ≠ .decBlock blk) → t.dmagic = s.dmagic) ∧
    ((∀ f p, i ≠ .encBlock f p) → (∀ blk, i ≠ .decBlock blk) → ∀ a, t.img.read a = s.img.read a)

/-- 20_memory.md section 4 (R49, which the spec marks as its own inference "[derived: from 10_state.md rule R30]"): every command but KS_NEXT and ENC_BLOCK, repeated, gives the same response and leaves
the same architectural state. -/
def Obligations.RepeatingAnIdempotentCommandChangesNothing : Prop :=
  ∀ (i : Instr) (s : State), i.wf = true → i ≠ .ksNext → (∀ f p, i ≠ .encBlock f p) →
    ∃ t u r, exec i s = .next t ∧ exec i t = .next u ∧ Responds s t r ∧ Responds t u r ∧ SameArch t u

/-- 10_state.md R22, R24: no command clears a valid bit. -/
def Obligations.NoCommandClearsAValidBit : Prop :=
  ∀ s t : State, step s = .next t → (∀ rest, s.pending ≠ .reset :: rest) →
    (s.magicV = true → t.magicV = true) ∧ (s.addrV = true → t.addrV = true)

/-- R137: DEC_BLOCK's response is a function of its operand alone, and it disturbs neither direction's registers. -/
def Obligations.DecodingDependsOnTheBlockAlone : Prop :=
  ∀ (blk : List Byte) (s s' : State), blk.length = 2048 →
    ∃ t t' r, exec (.decBlock blk) s = .next t ∧ exec (.decBlock blk) s' = .next t' ∧ Responds s t r ∧
      Responds s' t' r ∧ SameArch s t ∧ SameArch s' t' ∧ t.pending = s.pending ∧ t.dmagic = t'.dmagic

/-! ### Whole blocks -/

/-- 41_block_encoder.md section 3 (R110, which the spec marks as its own inference "[derived: from rule R105 and
40_keystream.md rule R83]"): ENC_BLOCK.FIRST is KS_INIT of SEED0 and then ENC_BLOCK, in response and end state; with
ADDR_V = 0 it changes nothing. -/
def Obligations.FirstBlockIsSeedingThenEncoding : Prop :=
  ∀ (p : List Byte) (s : State), p.length = 1024 →
    ∃ t u v r, exec (.encBlock true p) s = .next t ∧ exec (.ksInit 0x6569B868) s = .next u ∧
      exec (.encBlock false p) u = .next v ∧ Responds s t r ∧ Responds u v r ∧
      (s.addrV = true → SameArch t v ∧ t.dmagic = v.dmagic ∧ t.img = v.img) ∧
      (s.addrV = false → SameArch s t ∧ SameScratch s t ∧ r = ⟨.uninitialised, .none⟩ ∧ v.magic = 0x6569B868 ∧ v.magicV = true)

/-- 42_block_decoder.md section 3 (R139 for one block, which the spec marks as its own inference "[derived: from rule R132
and 41_block_encoder.md rule R105]"): a block with a non-zero captured seed decodes, in any state, to the address and
the payload it was encoded from. -/
def Obligations.BlockRoundTrip : Prop :=
  ∀ (f : Bool) (p : List Byte) (s : State), p.length = 1024 → s.addrV = true → (f = true ∨ s.magicV = true) →
    capturedSeed f s ≠ 0 →
    ∃ t blk, exec (.encBlock f p) s = .next t ∧ Responds s t ⟨.ok, .block blk⟩ ∧
      ∀ u, ∃ v, exec (.decBlock blk) u = .next v ∧ Responds u v ⟨.ok, .decoded s.addr 1024 318 p⟩ ∧ SameArch u v

/-- 42_block_decoder.md section 3 (R140, which the spec marks as its own inference "[derived: from rule R132, rule R135 and
40_keystream.md rule R80]"): a block with captured seed 0 decodes to MALFORMED_BLOCK with BLOCK_SIZE 0x8038D82F, whatever its payload and
address; the two keystreams differ at every index. -/
def Obligations.ZeroSeedBlockIsMalformed : Prop :=
  (∀ n, lcgPow n 0 ≠ lcgPow n 1) ∧
  ∀ (p : List Byte) (s : State), p.length = 1024 → s.addrV = true → s.magicV = true → s.magic = 0 →
    ∃ t blk, exec (.encBlock false p) s = .next t ∧ Responds s t ⟨.ok, .block blk⟩ ∧
      ∀ u, ∃ v a start, exec (.decBlock blk) u = .next v ∧
        Responds u v ⟨.malformedBlock, .header a 0x8038D82F start⟩ ∧ SameArch u v

/-- 30_encoding.md section 7 (R74), 60_exceptions.md section 4 (R183, R184), 42_block_decoder.md section 3 (R139 for a stream,
which the spec marks as its own inference "[derived: from rule R132 and 41_block_encoder.md rule R105]"): from any state, ENC_STREAM runs to the end and its output, given to
DEC_STREAM in any state, gives back the data with its 0xFF padding; block k reports the address a + 1024 k modulo 2^32. -/
def Obligations.StreamRoundTrip : Prop :=
  ∀ (a : Nat) (data : List Byte) (s s' : State), a < 2 ^ 32 →
    ∃ moves t, assembleProgram (encStream a data) = some moves ∧
      Host.Core.run Sys2Proof.core moves.length { s with pending := moves, responses := [] } = .next t ∧
      (encStreamOutput t.responses).length = (data.length + 1023) / 1024 * 2048 ∧
      ∃ moves' u, assembleProgram (decStream (encStreamOutput t.responses)) = some moves' ∧
        Host.Core.run Sys2Proof.core moves'.length { s' with pending := moves', responses := [] } = .next u ∧
        decStreamOutput 0 u.responses =
          (data ++ List.replicate ((data.length + 1023) / 1024 * 1024 - data.length) 0xFF, none) ∧
        ∀ k, k < (data.length + 1023) / 1024 →
          ∃ p, u.responses[k]? = some ⟨.ok, .decoded (BitVec.ofNat 32 (a + 1024 * k)) 1024 318 p⟩

/-- 30_encoding.md section 7 (R74): `KS_SKIP n` issues `n` commands `KS_NEXT`, which answer the next `n` keystream values
and leave the generator `n` steps on; the result is the last copy's, and `n = 0` issues nothing and has none. -/
def Obligations.SkipAdvancesTheGenerator : Prop :=
  ∀ (n : Nat) (s : State), s.magicV = true →
    ∃ moves t new, assembleProgram (ksSkip n) = some moves ∧ moves.length = n ∧
      Host.Core.run Sys2Proof.core n { s with pending := moves } = .next t ∧ t.pending = [] ∧
      t.magic = lcgPow n s.magic ∧ t.magicV = true ∧ SameAddr s t ∧
      t.responses = s.responses ++ new ∧
      new = (List.range n).map (fun k => ⟨.ok, .word (lcgPow (k + 1) s.magic)⟩) ∧
      ksSkipOutput new = if n = 0 then none else some (.word (lcgPow n s.magic))

/-- 60_exceptions.md section 4 (R184): the host decodes the whole blocks in order and no trailing part of one; its output is
the payloads in order, and the first malformed block ends it with that block's index and header fields. That the output
keeps the payloads of the blocks before the malformed one is the model's choice (log entry 8: DESIGN CHOICE). -/
def Obligations.DecodeRunEndsAtTheFirstMalformedBlock : Prop :=
  (∀ data : List Byte, (decStream data).length = data.length / 2048 ∧
    ∀ k, k < data.length / 2048 → (decStream data)[k]? = some (.decBlock ((data.drop (2048 * k)).take 2048))) ∧
  (∀ good : List (Word × Word × Word × List Byte),
    decStreamOutput 0 (good.map fun x => ⟨.ok, .decoded x.1 x.2.1 x.2.2.1 x.2.2.2⟩) =
      (good.flatMap fun x => x.2.2.2, none)) ∧
  ∀ (good : List (Word × Word × Word × List Byte)) (a size start : Word) (later : List Response),
    decStreamOutput 0 ((good.map fun x => ⟨.ok, .decoded x.1 x.2.1 x.2.2.1 x.2.2.2⟩) ++
        ⟨.malformedBlock, .header a size start⟩ :: later) =
      (good.flatMap fun x => x.2.2.2, some ⟨good.length, a, size, start⟩)

/-! ### Runs and invariants -/

/-- R182, 20_memory.md R54: while the host keeps the protocol, a run takes every move, completes, and returns exactly one
response for every command issued. No step of it faults or is refused. That responses already given survive a reset in the
run is the model's choice (log entry 4). -/
def Obligations.RunAnswersEveryCommandOnce : Prop :=
  ∀ s : State, ProtocolOk s →
    ∃ t, Host.Core.run Sys2Proof.core s.pending.length s = .next t ∧ t.pending = [] ∧
      t.responses.length = s.responses.length + issued s.pending

/-- 10_state.md R20, R26; 60_exceptions.md R194: what a run shows does not depend on the value of a register whose valid
bit is 0, on DMAGIC or on the buffer. So the values the model gives them at reset (log entries 1 to 3) are never shown. -/
def Obligations.UnobservedStateNeverShows : Prop :=
  ∀ (n : Nat) (s s' t : State), SameView s s' → Host.Core.run Sys2Proof.core n s = .next t →
    ∃ t', Host.Core.run Sys2Proof.core n s' = .next t' ∧ SameView t t'

/-- The buffer's canonical form and completeness, kept by every step (10_state.md R26; log entry 3). -/
def Obligations.EveryStepKeepsTheBufferInvariant : Prop :=
  ∀ s t : State, BufferInv s → step s = .next t → BufferInv t

/-- The buffer invariant holds after reset. -/
def Obligations.ResetMeetsTheBufferInvariant : Prop := BufferInv State.reset

/-! ### The host's run -/

/-- 60_exceptions.md section 4 (R182, R184): the host issues the DEC_BLOCK commands of a DEC_STREAM one at a time. Where
every whole block decodes, the run ends without an error, with one response for each and a trailing part not decoded. At
the first malformed block it ends with the error that names the block, and no later block is issued, so the run has no
later response. The registers stay as they are. That the output keeps the payloads of the blocks before the malformed one
is the model's choice (log entry 8: DESIGN CHOICE). -/
def Obligations.HostEndsTheDecodeRunAtTheFirstMalformedBlock : Prop :=
  (∀ (good : List (List Byte)) (tail : List Byte) (s : State), (∀ b ∈ good, b.length = 2048 ∧ SliceFits b) →
    tail.length < 2048 →
    ∃ cs t, decStreamCommands (good.flatten ++ tail) = some cs ∧ runHost cs s = .next ⟨t, none⟩ ∧
      t.responses = s.responses ++ good.map decodedResponse ∧ SameArch s t ∧ t.pending = s.pending ∧
      decStreamOutput 0 (good.map decodedResponse) = (good.flatMap payloadSpec, none)) ∧
  ∀ (good : List (List Byte)) (bad later : List Byte) (s : State), (∀ b ∈ good, b.length = 2048 ∧ SliceFits b) →
    bad.length = 2048 → ¬ SliceFits bad →
    ∃ cs t e, decStreamCommands (good.flatten ++ (bad ++ later)) = some cs ∧ runHost cs s = .next ⟨t, some e⟩ ∧
      e = ⟨good.length, decodedWordSpec bad 1, decodedWordSpec bad 0, BitVec.ofNat 32 (startByteSpec bad)⟩ ∧
      t.responses = s.responses ++ (good.map decodedResponse ++ [malformedResponse bad]) ∧ SameArch s t ∧
      t.pending = s.pending ∧
      decStreamOutput 0 (good.map decodedResponse ++ [malformedResponse bad]) = (good.flatMap payloadSpec, some e)
end

