-- ==== Sys2Proof/Laws/Memory.lean ====
section
/-! SUPPORT. What the named operations over the block buffer do: every one keeps the canonical form, a read after a
write gives the value written, and a write leaves every other byte alone. -/

namespace Sys2Proof.Laws

open Sys2Proof Sys2Proof.Machine

/-- The canonical form's order alone. -/
abbrev Rising (m : Memory) : Prop := m.Pairwise fun x y => x.1 < y.1

/-! ### Filling -/

theorem cellsFrom_mem_ge {bs : List Byte} {a : Nat} {c : Host.Cell} (h : c ∈ Memory.cellsFrom a bs) :
    a ≤ c.1 ∧ c.1 < a + bs.length := by
  induction bs generalizing a with
  | nil => simp [Memory.cellsFrom] at h
  | cons b bs ih =>
    simp only [Memory.cellsFrom, List.mem_cons] at h
    rcases h with rfl | h
    · simp
    · have := ih h
      simp only [List.length_cons]
      omega

theorem cellsFrom_rising (a : Nat) (bs : List Byte) : Rising (Memory.cellsFrom a bs) := by
  induction bs generalizing a with
  | nil => simp [Memory.cellsFrom]
  | cons b bs ih =>
    simp only [Memory.cellsFrom, List.pairwise_cons]
    exact ⟨fun c hc => by have := cellsFrom_mem_ge hc; omega, ih _⟩

/-- A buffer filled with at most 2048 bytes is canonical. -/
theorem ofBytes_wf {bs : List Byte} (h : bs.length ≤ Memory.size) : (Memory.ofBytes bs).wf :=
  ⟨cellsFrom_rising 0 bs, fun c hc => by have := (cellsFrom_mem_ge hc).2; omega⟩

theorem cellsFrom_read (bs : List Byte) (a k : Nat) : (Memory.cellsFrom a bs).read (a + k) = bs[k]? := by
  induction bs generalizing a k with
  | nil => simp [Memory.cellsFrom, Memory.read]
  | cons b bs ih =>
    cases k with
    | zero => simp [Memory.cellsFrom, Memory.read]
    | succ k =>
      have := ih (a + 1) k
      rw [show a + 1 + k = a + (k + 1) by omega] at this
      simp only [List.getElem?_cons_succ, ← this]
      simp [Memory.cellsFrom, Memory.read]

/-- The buffer filled with `bs` reads as `bs`, and holds no value beyond its end. -/
@[simp] theorem ofBytes_read (bs : List Byte) (a : Nat) : (Memory.ofBytes bs).read a = bs[a]? := by
  simpa [Memory.ofBytes] using cellsFrom_read bs 0 a

/-! ### One byte written -/

/-- A byte just written reads as written (00_scope.md R12). -/
theorem read_write_same (m : Memory) (a : Nat) (b : Byte) : (m.write a b).read a = some b := by
  induction m with
  | nil => simp [Memory.write, Memory.read]
  | cons c rest ih =>
    simp only [Memory.write]
    split
    · simp [Memory.read]
    · split
      · simp [Memory.read]
      · have hc : (c.1 == a) = false := by simp; omega
        simpa [Memory.read, hc] using ih

/-- A write leaves every other byte as it reads. -/
theorem read_write_other {a x : Nat} (hx : x ≠ a) (m : Memory) (b : Byte) : (m.write a b).read x = m.read x := by
  have hax : (a == x) = false := by simp; omega
  induction m with
  | nil => simp [Memory.write, Memory.read, hax]
  | cons c rest ih =>
    simp only [Memory.write]
    split
    · simp [Memory.read, hax]
    · split
      · have : (c.1 == x) = false := by simp; omega
        simp [Memory.read, hax, this]
      · cases hc : c.1 == x
        · simpa [Memory.read, hc] using ih
        · simp [Memory.read, hc]

theorem write_mem {m : Memory} {a : Nat} {b : Byte} {c : Host.Cell} (h : c ∈ m.write a b) : c.1 = a ∨ c ∈ m := by
  induction m with
  | nil => simp only [Memory.write, List.mem_singleton] at h; exact .inl (by rw [h])
  | cons d rest ih =>
    simp only [Memory.write] at h
    split at h
    · simp only [List.mem_cons] at h ⊢
      rcases h with rfl | h
      · exact .inl rfl
      · exact .inr h
    · split at h
      · simp only [List.mem_cons] at h ⊢
        rcases h with rfl | h
        · exact .inl rfl
        · exact .inr (.inr h)
      · simp only [List.mem_cons] at h ⊢
        rcases h with rfl | h
        · exact .inr (.inl rfl)
        · exact (ih h).imp id .inr

theorem write_rising {m : Memory} (h : Rising m) (a : Nat) (b : Byte) : Rising (m.write a b) := by
  induction m with
  | nil => simp [Memory.write]
  | cons c rest ih =>
    have hc := List.pairwise_cons.mp h
    simp only [Memory.write]
    split
    · refine List.pairwise_cons.mpr ⟨fun d hd => ?_, h⟩
      rcases List.mem_cons.mp hd with rfl | hd
      · assumption
      · have := hc.1 d hd
        simp only
        omega
    · split
      · rename_i hac
        exact List.pairwise_cons.mpr ⟨fun d hd => by have := hc.1 d hd; simp only; omega, hc.2⟩
      · refine List.pairwise_cons.mpr ⟨fun d hd => ?_, ih hc.2⟩
        rcases write_mem hd with h1 | h1
        · omega
        · exact hc.1 d h1

/-- A write inside the image keeps the canonical form. -/
theorem write_wf {m : Memory} (h : m.wf) {a : Nat} (ha : a < Memory.size) (b : Byte) : (m.write a b).wf :=
  ⟨write_rising h.1 a b, fun c hc => (write_mem hc).elim (fun e => e ▸ ha) (h.2 c)⟩

/-! ### Several bytes written -/

theorem writeBytes_wf {m : Memory} (h : m.wf) {a : Nat} {bs : List Byte} (ha : a + bs.length ≤ Memory.size) :
    (m.writeBytes a bs).wf := by
  induction bs generalizing m a with
  | nil => exact h
  | cons b bs ih =>
    simp only [List.length_cons] at ha
    exact ih (write_wf h (by omega) b) (by omega)

theorem read_writeBytes_outside {a x : Nat} {bs : List Byte} (hx : x < a ∨ a + bs.length ≤ x) (m : Memory) :
    (m.writeBytes a bs).read x = m.read x := by
  induction bs generalizing m a with
  | nil => rfl
  | cons b bs ih =>
    simp only [List.length_cons] at hx
    simp only [Memory.writeBytes]
    rw [ih (by omega), read_write_other (by omega)]

theorem read_writeBytes_inside {a k : Nat} {bs : List Byte} (hk : k < bs.length) (m : Memory) :
    (m.writeBytes a bs).read (a + k) = bs[k]? := by
  induction bs generalizing m a k with
  | nil => simp at hk
  | cons b bs ih =>
    simp only [Memory.writeBytes]
    cases k with
    | zero => simp [read_writeBytes_outside (.inl (Nat.lt_succ_self a)), read_write_same]
    | succ k =>
      have := ih (a := a + 1) (k := k) (by simpa using hk) (m.write a b)
      rw [show a + 1 + k = a + (k + 1) by omega] at this
      simpa using this

@[simp] theorem leBytes_length (n v : Nat) : (leBytes n v).length = n := by
  induction n generalizing v with
  | zero => rfl
  | succ n ih => simp [leBytes, ih]

/-- All `MemWrite` can do (R12): it stores `n` bytes inside the image, keeps the canonical form, and leaves every byte
outside the `n` as it reads. -/
theorem memWrite_spec {m m' : Memory} {a n v : Nat} (h : memWrite m a n v = .ok m') :
    a + n ≤ Memory.size ∧ (m.wf → m'.wf) ∧ (∀ k, k < n → m'.read (a + k) = (leBytes n v)[k]?) ∧
      ∀ x, x < a ∨ a + n ≤ x → m'.read x = m.read x := by
  unfold memWrite at h
  split at h
  · rename_i ha
    cases h
    exact ⟨ha, fun hm => writeBytes_wf hm (by simpa using ha), fun k hk => read_writeBytes_inside (by simpa using hk) m,
      fun x hx => read_writeBytes_outside (by simpa using hx) m⟩
  · cases h

/-! ### Slices -/

theorem cellsFrom_slice (bs : List Byte) (a0 a n : Nat) :
    (Memory.cellsFrom a0 bs).slice a n = (bs.drop (a - a0)).take (a + n - max a a0) := by
  induction bs generalizing a0 with
  | nil => simp [Memory.cellsFrom, Memory.slice]
  | cons b bs ih =>
    have ih' := ih (a0 + 1)
    simp only [Memory.slice] at ih'
    simp only [Memory.slice, Memory.cellsFrom, List.filter_cons]
    by_cases h1 : a ≤ a0
    · by_cases h2 : a0 < a + n
      · simp only [h1, h2, decide_true, Bool.and_self, if_true, List.map_cons, ih']
        rw [show a - (a0 + 1) = 0 by omega, show a - a0 = 0 by omega, Nat.max_eq_right h1,
          Nat.max_eq_right (by omega : a ≤ a0 + 1), show a + n - a0 = (a + n - (a0 + 1)) + 1 by omega]
        simp
      · simp only [h2, decide_false, Bool.and_false, Bool.false_eq_true, if_false, ih']
        rw [show a + n - max a (a0 + 1) = 0 by omega, show a + n - max a a0 = 0 by omega]
        simp
    · simp only [h1, decide_false, Bool.false_and, Bool.false_eq_true, if_false, ih']
      rw [show a - a0 = (a - (a0 + 1)) + 1 by omega, List.drop_succ_cons,
        Nat.max_eq_left (by omega : a0 + 1 ≤ a), Nat.max_eq_left (by omega : a0 ≤ a)]

/-- The bytes a filled buffer holds in a range. -/
theorem ofBytes_slice (bs : List Byte) (a n : Nat) : (Memory.ofBytes bs).slice a n = (bs.drop a).take n := by
  rw [Memory.ofBytes, cellsFrom_slice]
  simp

/-- Reading inside a filled buffer gives the bytes it was filled with. -/
theorem ofBytes_readBytes {bs : List Byte} (hbs : bs.length = Memory.size) {a n : Nat} (h : a + n ≤ Memory.size) :
    (Memory.ofBytes bs).readBytes a n = .ok ((bs.drop a).take n) := by
  have hlen : ((bs.drop a).take n).length = n := by simp; omega
  simp [Memory.readBytes, ofBytes_slice, h, hlen]

/-- All `readBytes` can do: `n` bytes inside the image, or a fault that names the access. -/
theorem readBytes_spec (m : Memory) (a n : Nat) :
    (∃ bs, m.readBytes a n = .ok bs ∧ bs.length = n ∧ a + n ≤ Memory.size) ∨
      m.readBytes a n = .error (.bufferUnwritten a n) ∨ m.readBytes a n = .error (.bufferRange a n) := by
  unfold Memory.readBytes
  split
  · split
    · exact .inl ⟨_, rfl, ‹_›, ‹_›⟩
    · exact .inr (.inl rfl)
  · exact .inr (.inr rfl)

end Sys2Proof.Laws
end

