-- ==== Sys2Proof/Laws/Params.lean ====
section
/-! SUPPORT. The value of each parameter, and the functions built on them with the values in place. A proof uses these,
not the unfolding of `params`. -/

namespace Sys2Proof.Laws

open Sys2Proof Sys2Proof.Machine

@[simp] theorem params_lcgA : params.lcgA = 0x7FF8A3ED := rfl
@[simp] theorem params_lcgC : params.lcgC = 0x2AA01D31 := rfl
@[simp] theorem params_seed0 : params.seed0 = 0x6569B868 := rfl
@[simp] theorem params_maskMul : params.maskMul = 0xAA := rfl
@[simp] theorem params_maskMod : params.maskMod = 0x7673 := rfl
@[simp] theorem params_amaskGrouping : params.amaskGrouping = .left := rfl
@[simp] theorem params_blockBytes : params.blockBytes = 2048 := rfl
@[simp] theorem params_blockWords : params.blockWords = 512 := rfl
@[simp] theorem params_payloadBytes : params.payloadBytes = 1024 := rfl
@[simp] theorem params_padBefore : params.padBefore = 318 := rfl
@[simp] theorem params_padAfter : params.padAfter = 706 := rfl
@[simp] theorem params_offsetDesc : params.offsetDesc = 286 := rfl
@[simp] theorem params_offsetBias : params.offsetBias = 32 := rfl
@[simp] theorem params_offsetMod : params.offsetMod = 512 := rfl
@[simp] theorem params_seedWord : params.seedWord = 6 := rfl
@[simp] theorem params_rotPhase : params.rotPhase = 2 := rfl
@[simp] theorem params_rotPeriod : params.rotPeriod = 16 := rfl
@[simp] theorem params_rotEnc : params.rotEnc = 25 := rfl
@[simp] theorem params_rotDec : params.rotDec = 7 := rfl
@[simp] theorem params_addrStep : params.addrStep = 1024 := rfl
@[simp] theorem params_padByte : params.padByte = 0xFF := rfl

/-! ### The sizes built on the parameters -/

@[simp] theorem encOperandBytes_eq : encOperandBytes = 1024 := rfl
@[simp] theorem decOperandBytes_eq : decOperandBytes = 2048 := rfl
@[simp] theorem memorySize_eq : Memory.size = 2048 := rfl

/-! ### The functions built on the parameters -/

/-- The generator's step with its constants (40_keystream.md R80). -/
theorem lcg_eq (s : Word) : lcg s = 0x7FF8A3ED * s + 0x2AA01D31 := by
  rw [lcg, params_lcgA, params_lcgC]

/-- The mask before the final reduction, in the normative grouping (R81). -/
theorem amaskNat_eq (s16 : Nat) : amaskNat s16 = 0xAA * s16 % 0x7673 := by
  rw [amaskNat, params_amaskGrouping, params_maskMul, params_maskMod]

/-- The class of an index (20_memory.md R45). -/
theorem wordClass_eq (i : Nat) :
    wordClass i = if i = 6 then .seed else if i % 16 = 2 then .rotated else .plain := by
  rw [wordClass, params_seedWord, params_rotPeriod, params_rotPhase]

/-- The forward transform with its constants (41_block_encoder.md R100). -/
theorem scr_eq (i : Nat) (w r : Word) :
    scr i w r = if i = 6 then w else if i % 16 = 2 then rotl32 (w ^^^ r) 25 else w ^^^ r := by
  rw [scr, wordClass_eq]
  by_cases h : i = 6
  · simp only [h, if_true]
  · by_cases h2 : i % 16 = 2 <;> simp only [h, h2, if_true, if_false, params_rotEnc]

/-- The reverse transform with its constants (42_block_decoder.md R130). -/
theorem dscr_eq (i : Nat) (w r : Word) :
    dscr i w r = if i = 6 then w else if i % 16 = 2 then rotl32 w 7 ^^^ r else w ^^^ r := by
  rw [dscr, wordClass_eq]
  by_cases h : i = 6
  · simp only [h, if_true]
  · by_cases h2 : i % 16 = 2 <;> simp only [h, h2, if_true, if_false, params_rotDec]

/-- The rotation, as the library's (00_scope.md R10). -/
theorem rotl32_eq_rotateLeft (x : Word) {n : Nat} (hn : n < 32) : rotl32 x n = x.rotateLeft n := by
  unfold rotl32
  split
  · subst_vars
    apply BitVec.eq_of_getLsbD_eq
    intro k hk
    simp [hk]
  · rw [BitVec.rotateLeft_def, Nat.mod_eq_of_lt hn]

end Sys2Proof.Laws
end

