-- ==== Sys2Proof/Laws/State.lean ====
section
/-! SUPPORT. One lemma per field per update of the state, each true by rfl, so that no proof unfolds a record update. -/

namespace Sys2Proof.Laws

open Sys2Proof Sys2Proof.Machine

@[simp] theorem setMagic_magic (s : State) (v : Word) : (s.setMagic v).magic = v := (rfl)
@[simp] theorem setMagic_magicV (s : State) (v : Word) : (s.setMagic v).magicV = s.magicV := (rfl)
@[simp] theorem setMagic_addr (s : State) (v : Word) : (s.setMagic v).addr = s.addr := (rfl)
@[simp] theorem setMagic_addrV (s : State) (v : Word) : (s.setMagic v).addrV = s.addrV := (rfl)
@[simp] theorem setMagic_dmagic (s : State) (v : Word) : (s.setMagic v).dmagic = s.dmagic := (rfl)
@[simp] theorem setMagic_img (s : State) (v : Word) : (s.setMagic v).img = s.img := (rfl)
@[simp] theorem setMagic_pending (s : State) (v : Word) : (s.setMagic v).pending = s.pending := (rfl)
@[simp] theorem setMagic_responses (s : State) (v : Word) : (s.setMagic v).responses = s.responses := (rfl)

@[simp] theorem seedMagic_magic (s : State) (v : Word) : (s.seedMagic v).magic = norm v := (rfl)
@[simp] theorem seedMagic_magicV (s : State) (v : Word) : (s.seedMagic v).magicV = true := (rfl)
@[simp] theorem seedMagic_addr (s : State) (v : Word) : (s.seedMagic v).addr = s.addr := (rfl)
@[simp] theorem seedMagic_addrV (s : State) (v : Word) : (s.seedMagic v).addrV = s.addrV := (rfl)
@[simp] theorem seedMagic_dmagic (s : State) (v : Word) : (s.seedMagic v).dmagic = s.dmagic := (rfl)
@[simp] theorem seedMagic_img (s : State) (v : Word) : (s.seedMagic v).img = s.img := (rfl)
@[simp] theorem seedMagic_pending (s : State) (v : Word) : (s.seedMagic v).pending = s.pending := (rfl)
@[simp] theorem seedMagic_responses (s : State) (v : Word) : (s.seedMagic v).responses = s.responses := (rfl)

@[simp] theorem loadAddr_magic (s : State) (v : Word) : (s.loadAddr v).magic = s.magic := (rfl)
@[simp] theorem loadAddr_magicV (s : State) (v : Word) : (s.loadAddr v).magicV = s.magicV := (rfl)
@[simp] theorem loadAddr_addr (s : State) (v : Word) : (s.loadAddr v).addr = v := (rfl)
@[simp] theorem loadAddr_addrV (s : State) (v : Word) : (s.loadAddr v).addrV = true := (rfl)
@[simp] theorem loadAddr_dmagic (s : State) (v : Word) : (s.loadAddr v).dmagic = s.dmagic := (rfl)
@[simp] theorem loadAddr_img (s : State) (v : Word) : (s.loadAddr v).img = s.img := (rfl)
@[simp] theorem loadAddr_pending (s : State) (v : Word) : (s.loadAddr v).pending = s.pending := (rfl)
@[simp] theorem loadAddr_responses (s : State) (v : Word) : (s.loadAddr v).responses = s.responses := (rfl)

@[simp] theorem advanceAddr_magic (s : State) : s.advanceAddr.magic = s.magic := by simp only [State.advanceAddr]
@[simp] theorem advanceAddr_magicV (s : State) : s.advanceAddr.magicV = s.magicV := by simp only [State.advanceAddr]
@[simp] theorem advanceAddr_addr (s : State) : s.advanceAddr.addr = s.addr + params.addrStep := by simp only [State.advanceAddr]
@[simp] theorem advanceAddr_addrV (s : State) : s.advanceAddr.addrV = s.addrV := by simp only [State.advanceAddr]
@[simp] theorem advanceAddr_dmagic (s : State) : s.advanceAddr.dmagic = s.dmagic := by simp only [State.advanceAddr]
@[simp] theorem advanceAddr_img (s : State) : s.advanceAddr.img = s.img := by simp only [State.advanceAddr]
@[simp] theorem advanceAddr_pending (s : State) : s.advanceAddr.pending = s.pending := by simp only [State.advanceAddr]
@[simp] theorem advanceAddr_responses (s : State) : s.advanceAddr.responses = s.responses := by simp only [State.advanceAddr]

@[simp] theorem setDmagic_magic (s : State) (v : Word) : (s.setDmagic v).magic = s.magic := (rfl)
@[simp] theorem setDmagic_magicV (s : State) (v : Word) : (s.setDmagic v).magicV = s.magicV := (rfl)
@[simp] theorem setDmagic_addr (s : State) (v : Word) : (s.setDmagic v).addr = s.addr := (rfl)
@[simp] theorem setDmagic_addrV (s : State) (v : Word) : (s.setDmagic v).addrV = s.addrV := (rfl)
@[simp] theorem setDmagic_dmagic (s : State) (v : Word) : (s.setDmagic v).dmagic = v := (rfl)
@[simp] theorem setDmagic_img (s : State) (v : Word) : (s.setDmagic v).img = s.img := (rfl)
@[simp] theorem setDmagic_pending (s : State) (v : Word) : (s.setDmagic v).pending = s.pending := (rfl)
@[simp] theorem setDmagic_responses (s : State) (v : Word) : (s.setDmagic v).responses = s.responses := (rfl)

@[simp] theorem setBuffer_magic (s : State) (bs : List Byte) : (s.setBuffer bs).magic = s.magic := (rfl)
@[simp] theorem setBuffer_magicV (s : State) (bs : List Byte) : (s.setBuffer bs).magicV = s.magicV := (rfl)
@[simp] theorem setBuffer_addr (s : State) (bs : List Byte) : (s.setBuffer bs).addr = s.addr := (rfl)
@[simp] theorem setBuffer_addrV (s : State) (bs : List Byte) : (s.setBuffer bs).addrV = s.addrV := (rfl)
@[simp] theorem setBuffer_dmagic (s : State) (bs : List Byte) : (s.setBuffer bs).dmagic = s.dmagic := (rfl)
@[simp] theorem setBuffer_img (s : State) (bs : List Byte) : (s.setBuffer bs).img = Memory.ofBytes bs := (rfl)
@[simp] theorem setBuffer_pending (s : State) (bs : List Byte) : (s.setBuffer bs).pending = s.pending := (rfl)
@[simp] theorem setBuffer_responses (s : State) (bs : List Byte) : (s.setBuffer bs).responses = s.responses := (rfl)

@[simp] theorem respond_magic (s : State) (st : Status) (res : ResultRecord) : (s.respond st res).magic = s.magic := (rfl)
@[simp] theorem respond_magicV (s : State) (st : Status) (res : ResultRecord) : (s.respond st res).magicV = s.magicV := (rfl)
@[simp] theorem respond_addr (s : State) (st : Status) (res : ResultRecord) : (s.respond st res).addr = s.addr := (rfl)
@[simp] theorem respond_addrV (s : State) (st : Status) (res : ResultRecord) : (s.respond st res).addrV = s.addrV := (rfl)
@[simp] theorem respond_dmagic (s : State) (st : Status) (res : ResultRecord) : (s.respond st res).dmagic = s.dmagic := (rfl)
@[simp] theorem respond_img (s : State) (st : Status) (res : ResultRecord) : (s.respond st res).img = s.img := (rfl)
@[simp] theorem respond_pending (s : State) (st : Status) (res : ResultRecord) : (s.respond st res).pending = s.pending := (rfl)
@[simp] theorem respond_responses (s : State) (st : Status) (res : ResultRecord) : (s.respond st res).responses = s.responses ++ [⟨st, res⟩] := (rfl)

@[simp] theorem enqueue_magic (s : State) (c : Command) : (s.enqueue c).magic = s.magic := (rfl)
@[simp] theorem enqueue_magicV (s : State) (c : Command) : (s.enqueue c).magicV = s.magicV := (rfl)
@[simp] theorem enqueue_addr (s : State) (c : Command) : (s.enqueue c).addr = s.addr := (rfl)
@[simp] theorem enqueue_addrV (s : State) (c : Command) : (s.enqueue c).addrV = s.addrV := (rfl)
@[simp] theorem enqueue_dmagic (s : State) (c : Command) : (s.enqueue c).dmagic = s.dmagic := (rfl)
@[simp] theorem enqueue_img (s : State) (c : Command) : (s.enqueue c).img = s.img := (rfl)
@[simp] theorem enqueue_pending (s : State) (c : Command) : (s.enqueue c).pending = .issue c :: s.pending := (rfl)
@[simp] theorem enqueue_responses (s : State) (c : Command) : (s.enqueue c).responses = s.responses := (rfl)

@[simp] theorem resetBlock_magic (s : State) : s.resetBlock.magic = 0 := (rfl)
@[simp] theorem resetBlock_magicV (s : State) : s.resetBlock.magicV = false := (rfl)
@[simp] theorem resetBlock_addr (s : State) : s.resetBlock.addr = 0 := (rfl)
@[simp] theorem resetBlock_addrV (s : State) : s.resetBlock.addrV = false := (rfl)
@[simp] theorem resetBlock_dmagic (s : State) : s.resetBlock.dmagic = 0 := (rfl)
@[simp] theorem resetBlock_img (s : State) : s.resetBlock.img = [] := (rfl)
@[simp] theorem resetBlock_pending (s : State) : s.resetBlock.pending = s.pending := (rfl)
@[simp] theorem resetBlock_responses (s : State) : s.resetBlock.responses = s.responses := (rfl)

/-! `beginBlock` is `seedMagic` with `F = 1` and nothing with `F = 0`. -/

@[simp] theorem beginBlock_true (s : State) : s.beginBlock true = s.seedMagic params.seed0 := (rfl)
@[simp] theorem beginBlock_false (s : State) : s.beginBlock false = s := (rfl)
@[simp] theorem beginBlock_addr (s : State) (f : Bool) : (s.beginBlock f).addr = s.addr := by cases f <;> exact (rfl)
@[simp] theorem beginBlock_addrV (s : State) (f : Bool) : (s.beginBlock f).addrV = s.addrV := by cases f <;> exact (rfl)
@[simp] theorem beginBlock_dmagic (s : State) (f : Bool) : (s.beginBlock f).dmagic = s.dmagic := by cases f <;> exact (rfl)
@[simp] theorem beginBlock_img (s : State) (f : Bool) : (s.beginBlock f).img = s.img := by cases f <;> exact (rfl)
@[simp] theorem beginBlock_pending (s : State) (f : Bool) : (s.beginBlock f).pending = s.pending := by cases f <;> exact (rfl)
@[simp] theorem beginBlock_responses (s : State) (f : Bool) : (s.beginBlock f).responses = s.responses := by cases f <;> exact (rfl)

/-! The reset state (10_state.md R31). -/

@[simp] theorem reset_magic : State.reset.magic = 0 := rfl
@[simp] theorem reset_magicV : State.reset.magicV = false := rfl
@[simp] theorem reset_addr : State.reset.addr = 0 := rfl
@[simp] theorem reset_addrV : State.reset.addrV = false := rfl
@[simp] theorem reset_dmagic : State.reset.dmagic = 0 := rfl
@[simp] theorem reset_img : State.reset.img = [] := rfl
@[simp] theorem reset_pending : State.reset.pending = [] := rfl
@[simp] theorem reset_responses : State.reset.responses = [] := rfl

end Sys2Proof.Laws
end

