-- ==== Sys2Proof/Laws/Words.lean ====
section
/-! SUPPORT. The small lemmas of the conversions, the per-dword transforms and the keystream pass. -/

namespace Sys2Proof.Laws

open Sys2Proof Sys2Proof.Machine

/-! ### The generator -/

@[simp] theorem lcgPow_zero (s : Word) : lcgPow 0 s = s := rfl

theorem lcgPow_succ (n : Nat) (s : Word) : lcgPow (n + 1) s = lcg (lcgPow n s) := rfl

/-- A step first, then the others. -/
theorem lcgPow_lcg (n : Nat) (s : Word) : lcgPow n (lcg s) = lcgPow (n + 1) s := by
  induction n with
  | zero => simp [lcgPow_succ]
  | succ n ih => rw [lcgPow_succ, ih, ← lcgPow_succ]

theorem lcgPow_add (m n : Nat) (s : Word) : lcgPow (m + n) s = lcgPow m (lcgPow n s) := by
  induction m with
  | zero => simp
  | succ m ih => rw [Nat.succ_add, lcgPow_succ, ih, lcgPow_succ]

/-! ### Conversions -/

@[simp] theorem unLe32_length (w : Word) : (unLe32 w).length = 4 := rfl

@[simp] theorem wordsToBytes_length (ws : List Word) : (wordsToBytes ws).length = 4 * ws.length := by
  induction ws with
  | nil => rfl
  | cons w ws ih => simp [wordsToBytes, ih]; omega

theorem bytesToWords_length {n : Nat} {bs : List Byte} (h : bs.length = 4 * n) : (bytesToWords bs).length = n := by
  induction n generalizing bs with
  | zero => cases bs with
    | nil => rfl
    | cons b bs => simp at h
  | succ n ih =>
    match bs, h with
    | b0 :: b1 :: b2 :: b3 :: rest, h =>
      simp only [bytesToWords, List.length_cons]
      rw [ih (by simp only [List.length_cons] at h; omega)]
    | [], h => simp at h
    | [_], h => simp at h; omega
    | [_, _], h => simp at h; omega
    | [_, _, _], h => simp at h; omega

/-- The word view of a block image is all of its words (20_memory.md R41). -/
theorem blockWordsOf_eq {bs : List Byte} (h : bs.length = 2048) : blockWordsOf bs = bytesToWords bs := by
  rw [blockWordsOf, params_blockWords, List.take_of_length_le]
  rw [bytesToWords_length (n := 512) h]

/-! ### The keystream pass -/

/-- What a pass gives: word `k` transformed with the `k`-th keystream value, and the state after one step a word. -/
theorem applyKeystream_getElem? (f : Nat → Word → Word → Word) (i : Nat) (s : Word) (ws : List Word) (k : Nat) :
    (applyKeystream f i s ws).1[k]? = ws[k]?.map fun w => f (i + k) w (keystream s k) := by
  induction ws generalizing i s k with
  | nil => simp [applyKeystream]
  | cons w ws ih =>
    cases k with
    | zero => simp [applyKeystream, keystream, lcgPow_succ]
    | succ k =>
      simp only [applyKeystream, List.getElem?_cons_succ, ih]
      rw [show i + 1 + k = i + (k + 1) by omega]
      simp only [keystream, lcgPow_lcg]

theorem applyKeystream_snd (f : Nat → Word → Word → Word) (i : Nat) (s : Word) (ws : List Word) :
    (applyKeystream f i s ws).2 = lcgPow ws.length s := by
  induction ws generalizing i s with
  | nil => simp [applyKeystream]
  | cons w ws ih => simp [applyKeystream, ih, lcgPow_lcg]

@[simp] theorem applyKeystream_length (f : Nat → Word → Word → Word) (i : Nat) (s : Word) (ws : List Word) :
    (applyKeystream f i s ws).1.length = ws.length := by
  induction ws generalizing i s with
  | nil => rfl
  | cons w ws ih => simp [applyKeystream, ih]

/-! ### Lengths inside the two block commands -/

theorem plainImage_length {p : List Byte} (h : p.length = 1024) : (plainImage p).length = 2048 := by
  simp only [plainImage, List.length_append, List.length_replicate, h]
  rfl

theorem plainWords_length (addr seed : Word) {p : List Byte} (h : p.length = 1024) :
    (plainWords addr seed p).length = 512 := by
  have := bytesToWords_length (n := 512) (plainImage_length h)
  simp [plainWords, obfuscateAddress, insertHeader, blockWordsOf_eq (plainImage_length h), this]

theorem encodeWords_length (addr seed : Word) {p : List Byte} (h : p.length = 1024) :
    (encodeWords addr seed p).1.length = 512 := by
  simp [encodeWords, plainWords_length addr seed h]

theorem decodedWords_length {blk : List Byte} (h : blk.length = 2048) : (decodedWords blk).length = 512 := by
  have := bytesToWords_length (n := 512) (bs := blk) h
  simp [decodedWords, restoreAddress, reverseWords, blockWordsOf_eq h, this]

end Sys2Proof.Laws
end

