-- ==== Sys2Proof/Laws/Step.lean ====
section
/-! SUPPORT. Once for each shared operation and for `step`: everything it can do. -/

namespace Sys2Proof.Laws

open Sys2Proof Sys2Proof.Machine

/-- `return` answers a next state, the one with the response. -/
@[simp] theorem finish_eq_next (s t : State) (res : ResultRecord) :
    finish s res = .next t ↔ s.respond .ok res = t := by simp [finish]

/-- `raise` answers a next state, the one with the response. -/
@[simp] theorem raise_eq_next (s t : State) (st : Status) (res : ResultRecord) :
    raise s st res = .next t ↔ s.respond st res = t := by simp [raise]

/-- The three things `present` can answer. -/
theorem present_cases (s : State) :
    (s.pending = [] ∧ s.present = .nothing) ∨
    (∃ rest, s.pending = .reset :: rest ∧ s.present = .reset { s with pending := rest }) ∨
    (∃ c rest, s.pending = .issue c :: rest ∧ s.present = .command c { s with pending := rest }) := by
  cases hp : s.pending with
  | nil => exact .inl ⟨rfl, by simp [State.present, hp]⟩
  | cons m rest =>
    cases m with
    | reset => exact .inr (.inl ⟨rest, rfl, by simp [State.present, hp]⟩)
    | issue c => exact .inr (.inr ⟨c, rest, rfl, by simp [State.present, hp]⟩)

/-- All a step can do. -/
theorem step_cases (s : State) :
    (s.pending = [] ∧ step s = .next s) ∨
    (∃ rest, s.pending = .reset :: rest ∧ step s = .next { s with pending := rest }.resetBlock) ∨
    (∃ c rest, s.pending = .issue c :: rest ∧
      ((decode c = .illegalWord ∧ step s = .next ({ s with pending := rest }.respond .illegalCommand .none)) ∨
       (decode c = .operandRecord ∧ step s = .refused .operandRecord) ∨
       ∃ i, decode c = .command i ∧ step s = exec i { s with pending := rest })) := by
  rcases present_cases s with ⟨h, hp⟩ | ⟨rest, h, hp⟩ | ⟨c, rest, h, hp⟩
  · exact .inl ⟨h, by simp [step, hp]⟩
  · exact .inr (.inl ⟨rest, h, by simp [step, hp]⟩)
  · refine .inr (.inr ⟨c, rest, h, ?_⟩)
    cases hd : decode c with
    | illegalWord => exact .inl ⟨rfl, by simp [step, hp, hd, raise]⟩
    | operandRecord => exact .inr (.inl ⟨rfl, by simp [step, hp, hd]⟩)
    | command i => exact .inr (.inr ⟨i, rfl, by simp [step, hp, hd]⟩)

/-- All `KS_NEXT` can do. -/
theorem execKsNext_cases (s : State) :
    (s.magicV = false ∧ execKsNext s = .next (s.respond .uninitialised .none)) ∨
    (s.magicV = true ∧ execKsNext s = .next ((s.setMagic (lcg s.magic)).respond .ok (.word (lcg s.magic)))) := by
  cases h : s.magicV <;> simp [execKsNext, ksNextUninitialised, h, raise, finish]

/-- All `ENC_BLOCK` can do. -/
theorem execEncBlock_cases (f : Bool) (p : List Byte) (s : State) :
    (p.length ≠ 1024 ∧ execEncBlock f p s = .refused .operandWidth) ∨
    (p.length = 1024 ∧ encUninitialised f s = true ∧
      execEncBlock f p s = .next (s.respond .uninitialised .none)) ∨
    (p.length = 1024 ∧ encUninitialised f s = false ∧
      execEncBlock f p s = .next
        ((((s.beginBlock f).advanceAddr.setMagic (lcgPow 512 (s.beginBlock f).magic)).setBuffer
            (wordsToBytes (encodeWords s.addr (s.beginBlock f).magic p).1)).respond .ok
          (.block (wordsToBytes (encodeWords s.addr (s.beginBlock f).magic p).1)))) := by
  by_cases hp : p.length = 1024
  · refine .inr ?_
    cases hu : encUninitialised f s
    · refine .inr ⟨hp, rfl, ?_⟩
      have hl := plainWords_length s.addr (s.beginBlock f).magic hp
      simp [execEncBlock, hp, hu, finish, encodeWords, applyKeystream_snd, hl]
    · exact .inl ⟨hp, rfl, by simp [execEncBlock, hp, hu, raise]⟩
  · exact .inl ⟨hp, by simp [execEncBlock, hp]⟩

/-- The state a `DEC_BLOCK` leaves before its response: the generator stepped 512 times, the buffer with the decoded
block. -/
def decodedState (blk : List Byte) (s : State) : State :=
  (s.setDmagic (lcgPow 512 (norm (wordAt (bytesToWords blk) 6)))).setBuffer (wordsToBytes (decodedWords blk))

/-- All `DEC_BLOCK` can do: no path reads outside the buffer. -/
theorem execDecBlock_cases (blk : List Byte) (s : State) :
    (blk.length ≠ 2048 ∧ execDecBlock blk s = .refused .operandWidth) ∨
    (blk.length = 2048 ∧ 2048 < startByteOf (decodedWords blk) + (blockSizeOf (decodedWords blk)).toNat ∧
      execDecBlock blk s = .next ((decodedState blk s).respond .malformedBlock
        (.header (startAddressOf (decodedWords blk)) (blockSizeOf (decodedWords blk))
          (BitVec.ofNat 32 (startByteOf (decodedWords blk)))))) ∨
    (blk.length = 2048 ∧ startByteOf (decodedWords blk) + (blockSizeOf (decodedWords blk)).toNat ≤ 2048 ∧
      execDecBlock blk s = .next ((decodedState blk s).respond .ok
        (.decoded (startAddressOf (decodedWords blk)) (blockSizeOf (decodedWords blk))
          (BitVec.ofNat 32 (startByteOf (decodedWords blk)))
          (((wordsToBytes (decodedWords blk)).drop (startByteOf (decodedWords blk))).take
            (blockSizeOf (decodedWords blk)).toNat)))) := by
  by_cases hb : blk.length = 2048
  · refine .inr ?_
    have hraw := bytesToWords_length (n := 512) (bs := blk) hb
    have hst : (s.setDmagic (reverseWords blk).2).setBuffer (wordsToBytes (decodedWords blk)) = decodedState blk s := by
      simp [decodedState, reverseWords, blockWordsOf_eq hb, applyKeystream_snd, hraw]
    by_cases hs : 2048 < startByteOf (decodedWords blk) + (blockSizeOf (decodedWords blk)).toNat
    · refine .inl ⟨hb, hs, ?_⟩
      have : sliceLeavesBlock (startByteOf (decodedWords blk)) (blockSizeOf (decodedWords blk)).toNat = true := by
        exact decide_eq_true hs
      simp [execDecBlock, hb, hst, extractPayload, this, raise]
    · have hs' := Nat.le_of_not_lt hs
      refine .inr ⟨hb, hs', ?_⟩
      have hno : sliceLeavesBlock (startByteOf (decodedWords blk)) (blockSizeOf (decodedWords blk)).toNat = false := by
        exact decide_eq_false hs
      have hlen : (wordsToBytes (decodedWords blk)).length = Memory.size := by
        simp [decodedWords_length hb]
      have hr := ofBytes_readBytes hlen (a := startByteOf (decodedWords blk))
        (n := (blockSizeOf (decodedWords blk)).toNat) hs'
      simp [execDecBlock, hb, hst, extractPayload, hno, decodedState, hr, finish]
  · exact .inl ⟨hb, by simp [execDecBlock, hb]⟩

end Sys2Proof.Laws
end

