-- ==== Sys2Proof/Laws/Blocks.lean ====
section
/-! SUPPORT. The functions of the two block commands in the rules' own formulas (Safety.lean), one lemma for each. -/

namespace Sys2Proof.Laws

open Sys2Proof Sys2Proof.Machine Sys2Proof.Safety

/-! ### Bytes and words by value -/

/-- Byte `k` of a word, by value (20_memory.md R43). -/
theorem byteOf_toNat (w : Word) (k : Nat) : (byteOf w k).toNat = w.toNat / 2 ^ (8 * k) % 256 := by
  rw [byteOf, BitVec.extractLsb'_toNat, Nat.shiftRight_eq_div_pow]

theorem byteOf_eq (w : Word) (k : Nat) : byteOf w k = BitVec.ofNat 8 (w.toNat / 256 ^ k) := by
  apply BitVec.eq_of_toNat_eq
  rw [byteOf_toNat, BitVec.toNat_ofNat, pow_mul]
  norm_num

theorem or_shiftLeft (a b n : Nat) (h : a < 2 ^ n) : a ||| (b <<< n) = a + 2 ^ n * b := by
  rw [Nat.lor_comm, Nat.shiftLeft_eq, Nat.mul_comm, ← Nat.two_pow_add_eq_or_of_lt h, Nat.add_comm]

/-- The little-endian word of four bytes, by value (R41). -/
theorem le32_toNat (b0 b1 b2 b3 : Byte) :
    (le32 b0 b1 b2 b3).toNat = b0.toNat + 2 ^ 8 * b1.toNat + 2 ^ 16 * b2.toNat + 2 ^ 24 * b3.toNat := by
  have h0 := b0.isLt
  have h1 := b1.isLt
  have h2 := b2.isLt
  have h3 := b3.isLt
  simp only [le32, BitVec.toNat_or, BitVec.toNat_shiftLeft, BitVec.toNat_setWidth]
  rw [Nat.mod_eq_of_lt (a := b0.toNat) (by omega), Nat.mod_eq_of_lt (a := b1.toNat) (by omega),
    Nat.mod_eq_of_lt (a := b2.toNat) (by omega), Nat.mod_eq_of_lt (a := b3.toNat) (by omega),
    Nat.mod_eq_of_lt (a := b1.toNat <<< 8) (by rw [Nat.shiftLeft_eq]; omega),
    Nat.mod_eq_of_lt (a := b2.toNat <<< 16) (by rw [Nat.shiftLeft_eq]; omega),
    Nat.mod_eq_of_lt (a := b3.toNat <<< 24) (by rw [Nat.shiftLeft_eq]; omega),
    or_shiftLeft _ _ 8 (by omega), or_shiftLeft _ _ 16 (by omega), or_shiftLeft _ _ 24 (by omega)]

theorem bytesToWords_getElem? {bs : List Byte} {n i : Nat} (h : bs.length = 4 * n) (hi : i < n) :
    (bytesToWords bs)[i]? = some (leWord (byteAt bs) i) := by
  induction n generalizing bs i with
  | zero => omega
  | succ n ih =>
    match bs, h with
    | b0 :: b1 :: b2 :: b3 :: rest, h =>
      cases i with
      | zero =>
        simp only [bytesToWords, List.getElem?_cons_zero]
        congr 1
        apply BitVec.eq_of_toNat_eq
        rw [le32_toNat, leWord, BitVec.toNat_ofNat]
        have h0 := b0.isLt
        have h1 := b1.isLt
        have h2 := b2.isLt
        have h3 := b3.isLt
        simp only [byteAt, List.getD_cons_succ, List.getD_cons_zero, Nat.mul_zero, Nat.zero_add]
        omega
      | succ i =>
        simp only [bytesToWords, List.getElem?_cons_succ]
        rw [ih (bs := rest) (i := i) (by simp only [List.length_cons] at h; omega) (by omega)]
        congr 1
    | [], h => simp at h
    | [_], h => simp only [List.length_cons, List.length_nil] at h; omega
    | [_, _], h => simp only [List.length_cons, List.length_nil] at h; omega
    | [_, _, _], h => simp only [List.length_cons, List.length_nil] at h; omega

/-- Word `i` of a byte sequence (R41). -/
theorem wordAt_bytesToWords {bs : List Byte} {n i : Nat} (h : bs.length = 4 * n) (hi : i < n) :
    wordAt (bytesToWords bs) i = leWord (byteAt bs) i := by
  rw [wordAt, List.getD_eq_getElem?_getD, bytesToWords_getElem? h hi]
  rfl

/-- Byte `a` of a sequence of words (R41). -/
theorem wordsToBytes_getElem? (ws : List Word) (a : Nat) :
    (wordsToBytes ws)[a]? = ws[a / 4]?.map fun w => byteOf w (a % 4) := by
  induction ws generalizing a with
  | nil => simp [wordsToBytes]
  | cons w ws ih =>
    simp only [wordsToBytes]
    by_cases h : a < 4
    · rw [List.getElem?_append_left (by simpa using h)]
      interval_cases a <;> rfl
    · rw [List.getElem?_append_right (by simp; omega), unLe32_length, ih]
      obtain ⟨b, rfl⟩ : ∃ b, a = b + 4 := ⟨a - 4, by omega⟩
      simp only [Nat.add_sub_cancel, Nat.add_div_right b (by omega : 0 < 4), List.getElem?_cons_succ,
        Nat.add_mod_right]

/-! ### The mask and the transforms -/

/-- The address mask, by value (40_keystream.md R81). -/
theorem amask_toNat (s : Word) : (amask s).toNat = 0xAA * (s.toNat % 2 ^ 16) % 0x7673 := by
  have := Nat.mod_lt (0xAA * (s.toNat % 2 ^ 16)) (show 0 < 0x7673 by decide)
  rw [amask, amaskNat_eq, BitVec.toNat_ofNat, Nat.mod_eq_of_lt (by omega)]

theorem amask32_eq_maskSpec (s : Word) : amask32 s = maskSpec s := by
  have := Nat.mod_lt (0xAA * (s.toNat % 2 ^ 16)) (show 0 < 0x7673 by decide)
  apply BitVec.eq_of_toNat_eq
  rw [amask32, BitVec.toNat_setWidth, amask_toNat, maskSpec, BitVec.toNat_ofNat]
  congr 1
  omega

theorem scr_eq_scrSpec (i : Nat) (w r : Word) : scr i w r = scrSpec i w r := by
  rw [scr_eq, scrSpec, rotl32_eq_rotateLeft _ (by omega)]

theorem dscr_eq_dscrSpec (i : Nat) (w r : Word) : dscr i w r = dscrSpec i w r := by
  rw [dscr_eq, dscrSpec, rotl32_eq_rotateLeft _ (by omega)]

theorem wordAt_applyKeystream (f : Nat → Word → Word → Word) (s : Word) {ws : List Word} {i : Nat}
    (h : i < ws.length) : wordAt (applyKeystream f 0 s ws).1 i = f i (wordAt ws i) (lcgPow (i + 1) s) := by
  rw [wordAt, List.getD_eq_getElem?_getD, applyKeystream_getElem?, wordAt, List.getD_eq_getElem?_getD,
    List.getElem?_eq_getElem h]
  simp [keystream]

/-! ### Encoding -/

theorem beginBlock_magic (f : Bool) (s : State) : (s.beginBlock f).magic = capturedSeed f s := by
  cases f
  · rfl
  · simp only [State.beginBlock, capturedSeed, if_true, seedMagic_magic, params_seed0]
    rfl

theorem byteAt_plainImage {p : List Byte} (h : p.length = 1024) (a : Nat) :
    byteAt (plainImage p) a = plainByteSpec p a := by
  rw [plainImage, params_padBefore, params_padAfter, byteAt, plainByteSpec, List.getD_eq_getElem?_getD]
  by_cases h1 : a < 318
  · rw [List.append_assoc, List.getElem?_append_left (by rw [List.length_replicate]; omega), if_neg (by omega),
      List.getElem?_replicate, if_pos h1]
    rfl
  · by_cases h2 : a ≤ 1341
    · rw [List.append_assoc, List.getElem?_append_right (by rw [List.length_replicate]; omega),
        List.length_replicate, List.getElem?_append_left (by omega), if_pos (by omega), byteAt,
        List.getD_eq_getElem?_getD]
    · rw [if_neg (by omega),
        List.getElem?_append_right (by rw [List.length_append, List.length_replicate]; omega),
        List.getElem?_replicate]
      split <;> rfl

/-- The plain words after the header insertion and the address obfuscation (41_block_encoder.md R103 to R105). -/
theorem wordAt_plainWords (addr seed : Word) {p : List Byte} (h : p.length = 1024) {i : Nat} (hi : i < 512) :
    wordAt (plainWords addr seed p) i = plainWordSpec addr seed p i := by
  have hl : (bytesToWords (plainImage p)).length = 512 := bytesToWords_length (n := 512) (plainImage_length h)
  have hb : wordAt (bytesToWords (plainImage p)) i = leWord (plainByteSpec p) i := by
    rw [wordAt_bytesToWords (n := 512) (plainImage_length h) hi, funext (byteAt_plainImage h)]
  generalize hws : bytesToWords (plainImage p) = ws at *
  simp only [plainWords, obfuscateAddress, insertHeader, blockWordsOf_eq (plainImage_length h), params_seedWord, params_payloadBytes, params_offsetDesc, hws,
    plainWordSpec]
  simp only [wordAt, List.getD_eq_getElem?_getD, List.getElem?_set, List.length_set, hl] at *
  by_cases h0 : i = 0
  · subst h0; simp
  by_cases h1 : i = 1
  · subst h1; simp [amask32_eq_maskSpec]
  by_cases h3 : i = 3
  · subst h3; simp
  by_cases h6 : i = 6
  · subst h6; simp
  simp only [if_neg h0, if_neg h1, if_neg h3, if_neg h6, if_neg (Ne.symm h0), if_neg (Ne.symm h1),
    if_neg (Ne.symm h3), if_neg (Ne.symm h6), hb]

/-- The wire words (R105 step 5). -/
theorem wordAt_encodeWords (addr seed : Word) {p : List Byte} (h : p.length = 1024) {i : Nat} (hi : i < 512) :
    wordAt (encodeWords addr seed p).1 i =
      scrSpec i (plainWordSpec addr seed p i) (lcgPow (i + 1) seed) := by
  rw [encodeWords, wordAt_applyKeystream _ _ (by rw [plainWords_length _ _ h]; exact hi), scr_eq_scrSpec,
    wordAt_plainWords _ _ h hi]

/-! ### Decoding -/

theorem norm_seed_eq_decodeSeedSpec {blk : List Byte} (h : blk.length = 2048) :
    Machine.norm (wordAt (bytesToWords blk) 6) = decodeSeedSpec blk := by
  rw [wordAt_bytesToWords (n := 512) h (by omega), Machine.norm, decodeSeedSpec]

/-- The decoded words (42_block_decoder.md R132). -/
theorem wordAt_decodedWords {blk : List Byte} (h : blk.length = 2048) {i : Nat} (hi : i < 512) :
    wordAt (decodedWords blk) i = decodedWordSpec blk i := by
  have hl := bytesToWords_length (n := 512) (bs := blk) h
  have hr : ∀ j, j < 512 → wordAt (reverseWords blk).1 j =
      dscrSpec j (leWord (byteAt blk) j) (lcgPow (j + 1) (decodeSeedSpec blk)) := by
    intro j hj
    rw [reverseWords, blockWordsOf_eq h, wordAt_applyKeystream _ _ (by omega), dscr_eq_dscrSpec, params_seedWord,
      norm_seed_eq_decodeSeedSpec h, wordAt_bytesToWords (n := 512) h hj]
  have hrl : (reverseWords blk).1.length = 512 := by simp [reverseWords, blockWordsOf_eq h, hl]
  have e6 : dscrSpec 6 (leWord (byteAt blk) 6) (lcgPow (6 + 1) (decodeSeedSpec blk)) = leWord (byteAt blk) 6 := by
    simp [dscrSpec]
  rw [decodedWords, restoreAddress, params_seedWord, amask32_eq_maskSpec, hr 6 (by omega), decodedWordSpec, e6]
  by_cases h1 : i = 1
  · subst h1
    rw [wordAt, List.getD_eq_getElem?_getD, List.getElem?_set, if_pos rfl, if_pos (by omega), hr 1 (by omega)]
    rfl
  · rw [wordAt, List.getD_eq_getElem?_getD, List.getElem?_set, if_neg (by omega), ← List.getD_eq_getElem?_getD]
    change wordAt _ _ = _
    rw [hr i hi]
    simp only [if_neg h1]

/-- Byte `a` of the decoded image (R132 step 5). -/
theorem decodedImage_getElem? {blk : List Byte} (h : blk.length = 2048) {a : Nat} (ha : a < 2048) :
    (wordsToBytes (decodedWords blk))[a]? = some (leByte (decodedWordSpec blk) a) := by
  rw [wordsToBytes_getElem?, List.getElem?_eq_getElem (by rw [decodedWords_length h]; omega), Option.map_some, leByte,
    byteOf_eq, ← wordAt_decodedWords h (i := a / 4) (by omega), wordAt, List.getD_eq_getElem?_getD,
    List.getElem?_eq_getElem (by rw [decodedWords_length h]; omega)]
  rfl

theorem startByteOf_eq {blk : List Byte} (h : blk.length = 2048) :
    startByteOf (decodedWords blk) = startByteSpec blk := by
  rw [startByteOf, wordAt_decodedWords h (by omega), params_offsetMod, params_offsetBias]
  rfl

theorem blockSizeOf_eq {blk : List Byte} (h : blk.length = 2048) :
    blockSizeOf (decodedWords blk) = decodedWordSpec blk 0 := by
  rw [blockSizeOf, wordAt_decodedWords h (by omega)]

theorem startAddressOf_eq {blk : List Byte} (h : blk.length = 2048) :
    startAddressOf (decodedWords blk) = decodedWordSpec blk 1 := by
  rw [startAddressOf, wordAt_decodedWords h (by omega)]

/-! ### Responses -/

/-- A response appended to a state that has `s`'s responses. -/
theorem responds_of {s u : State} (st : Status) (res : ResultRecord) (h : u.responses = s.responses) :
    Responds s (u.respond st res) ⟨st, res⟩ := by
  rw [Responds, respond_responses, h]

/-- A step gives at most one response. -/
theorem responds_unique {s t : State} {r r' : Response} (h : Responds s t r) (h' : Responds s t r') : r = r' := by
  rw [Responds] at h h'
  rw [h] at h'
  simpa using h'

theorem encodedState_responses (f : Bool) (s : State) (v : Word) (b : List Byte) :
    (((s.beginBlock f).advanceAddr.setMagic v).setBuffer b).responses = s.responses := by
  simp only [setBuffer_responses, setMagic_responses, advanceAddr_responses, beginBlock_responses]

theorem decodedState_responses (blk : List Byte) (s : State) : (decodedState blk s).responses = s.responses := by
  simp only [decodedState, setBuffer_responses, setDmagic_responses]

end Sys2Proof.Laws
end

