-- ==== Sys2Proof/Laws/Decode.lean ====
section
/-! SUPPORT. What the decoder does, by value: the masked comparison of a table row, the opcode of a command word, and the
fields. -/

namespace Sys2Proof.Laws

open Sys2Proof Sys2Proof.Machine

/-- A word under a mask that keeps the low byte and every bit from `n` up, by value. -/
theorem and_mask_eq_iff (x M p : Word) (n : Nat) (hn : 8 ≤ n) (hp : p.toNat < 2 ^ 8)
    (hM : ∀ k, k < 32 → M.getLsbD k = (decide (k < 8) || decide (n ≤ k))) :
    (x &&& M = p) ↔ x.toNat % 2 ^ 8 = p.toNat ∧ x.toNat / 2 ^ n = 0 := by
  have hp' : ∀ k, 8 ≤ k → p.toNat.testBit k = false := fun k hk =>
    Nat.testBit_lt_two_pow (lt_of_lt_of_le hp (Nat.pow_le_pow_right (by omega) hk))
  have hx : ∀ k, 32 ≤ k → x.toNat.testBit k = false := fun k hk =>
    Nat.testBit_lt_two_pow (lt_of_lt_of_le x.isLt (Nat.pow_le_pow_right (by omega) hk))
  constructor
  · intro h
    have hb : ∀ k, k < 32 → (x.toNat.testBit k && (decide (k < 8) || decide (n ≤ k))) = p.toNat.testBit k := by
      intro k hk
      have := congrArg (fun y => y.getLsbD k) h
      simp only [BitVec.getLsbD_and, hM k hk] at this
      simpa only [BitVec.getLsbD] using this
    constructor
    · apply Nat.eq_of_testBit_eq
      intro k
      rw [Nat.testBit_mod_two_pow]
      by_cases hk : k < 8
      · simpa [hk] using hb k (by omega)
      · simp [hk, hp' k (by omega)]
    · apply Nat.eq_of_testBit_eq
      intro k
      rw [Nat.testBit_div_two_pow]
      by_cases hk : k + n < 32
      · have := hb (k + n) hk
        rw [hp' _ (by omega)] at this
        simpa using this
      · simp [hx (k + n) (by omega)]
  · rintro ⟨h1, h2⟩
    apply BitVec.eq_of_getLsbD_eq
    intro k hk
    have e1 := congrArg (fun y => y.testBit k) h1
    simp only [Nat.testBit_mod_two_pow] at e1
    simp only [BitVec.getLsbD_and, hM k hk]
    simp only [BitVec.getLsbD]
    by_cases hk8 : k < 8
    · simpa [hk8] using e1
    · by_cases hnk : n ≤ k
      · have e2 := congrArg (fun y => y.testBit (k - n)) h2
        simp only [Nat.testBit_div_two_pow, Nat.sub_add_cancel hnk] at e2
        simp only [hk8, hnk, decide_true, hp' k (by omega), Bool.or_true, Bool.and_true]
        simpa using e2
      · simp [hk8, hnk, hp' k (by omega)]

/-- The full mask compares the whole word. -/
theorem and_full_eq_iff (x p : Word) : (x &&& 0xFFFFFFFF = p) ↔ x.toNat = p.toNat := by
  rw [BitVec.toNat_inj, show (0xFFFFFFFF : Word) = BitVec.allOnes 32 from rfl, BitVec.and_allOnes]

/-- The CMDI mask. -/
theorem and_cmdI_eq_iff (x p : Word) (hp : p.toNat < 2 ^ 8) :
    (x &&& 0xFFFE00FF = p) ↔ x.toNat % 2 ^ 8 = p.toNat ∧ x.toNat / 2 ^ 17 = 0 :=
  and_mask_eq_iff x _ p 17 (by omega) hp (by decide)

/-- The CMDF mask. -/
theorem and_cmdF_eq_iff (x p : Word) (hp : p.toNat < 2 ^ 8) :
    (x &&& 0xFFFFFEFF = p) ↔ x.toNat % 2 ^ 8 = p.toNat ∧ x.toNat / 2 ^ 9 = 0 :=
  and_mask_eq_iff x _ p 9 (by omega) hp (by decide)

/-- The opcode a command word selects, by value, in the table's order (30_encoding.md R67, R68). -/
theorem decodeOpcode_eq (cmd : Word) : decodeOpcode cmd =
    if cmd.toNat = 1 then some .ksInit
    else if cmd.toNat = 2 then some .ksNext
    else if cmd.toNat = 3 then some .addrMask
    else if cmd.toNat % 2 ^ 8 = 4 ∧ cmd.toNat / 2 ^ 17 = 0 then some .scrDword
    else if cmd.toNat % 2 ^ 8 = 5 ∧ cmd.toNat / 2 ^ 17 = 0 then some .dscrDword
    else if cmd.toNat = 6 then some .packLe32
    else if cmd.toNat = 7 then some .unpackLe32
    else if cmd.toNat = 8 then some .addrLoad
    else if cmd.toNat % 2 ^ 8 = 16 ∧ cmd.toNat / 2 ^ 9 = 0 then some .encBlock
    else if cmd.toNat = 17 then some .decBlock
    else none := by
  have beqd : ∀ a b : Word, (a == b) = decide (a = b) := fun _ _ => rfl
  have h1 := and_full_eq_iff cmd 1
  have h2 := and_full_eq_iff cmd 2
  have h3 := and_full_eq_iff cmd 3
  have h4 := and_cmdI_eq_iff cmd 4 (by decide)
  have h5 := and_cmdI_eq_iff cmd 5 (by decide)
  have h6 := and_full_eq_iff cmd 6
  have h7 := and_full_eq_iff cmd 7
  have h8 := and_full_eq_iff cmd 8
  have h16 := and_cmdF_eq_iff cmd 16 (by decide)
  have h17 := and_full_eq_iff cmd 17
  have find : ∀ (row : Row) (rows : List Row), (row :: rows).find? (fun r => r.selects cmd) =
      if cmd &&& row.mask = row.pattern then some row else rows.find? (fun r => r.selects cmd) := by
    intro row rows
    simp only [List.find?_cons, Row.selects, beqd]
    split <;> simp_all
  simp only [decodeOpcode, opcodeRows, find, h1, h2, h3, h4, h5, h6, h7, h8, h16, h17, List.find?_nil,
    apply_ite (Option.map Row.op), Option.map_some, Option.map_none]
  rfl

/-- A transaction decodes to the command its word and record assemble to. -/
theorem decode_of {c : Word} {ops : OperandRecord} {op : Opcode} {i : Instr} (h : decodeOpcode c = some op)
    (h2 : assembleOperands op c ops = some i) : decode ⟨c, ops⟩ = .command i := by
  simp only [decode, h, h2]

/-- Everything a transaction that decodes to a command satisfies. -/
theorem decode_command {c : Command} {i : Instr} (h : decode c = .command i) :
    ∃ op, decodeOpcode c.word = some op ∧ assembleOperands op c.word c.operands = some i := by
  unfold decode at h
  split at h
  · cases h
  · rename_i op hop
    split at h
    · rename_i j hj
      cases h
      exact ⟨op, hop, hj⟩
    · cases h

/-- The field `I`, by value (R64). -/
theorem fieldI_toNat (c : Word) : (fieldI c).toNat = c.toNat / 2 ^ 8 % 2 ^ 9 := by
  simp [fieldI, Nat.shiftRight_eq_div_pow]

/-- The flag `F`, by value (R63). -/
theorem fieldF_toNat (c : Word) : (fieldF c).toNat = c.toNat / 2 ^ 8 % 2 := by
  simp only [fieldF, BitVec.getLsbD, Nat.testBit, Nat.shiftRight_eq_div_pow, Nat.one_and_eq_mod_two]
  rcases Nat.mod_two_eq_zero_or_one (c.toNat / 2 ^ 8) with h | h <;> rw [h] <;> rfl

/-- A CMDI word, by value (R61). -/
theorem cmdI_toNat (op : Byte) (i : BitVec 9) : (cmdI op i).toNat = op.toNat + 2 ^ 8 * i.toNat := by
  have h1 := op.isLt
  have h2 := i.isLt
  have h3 : i.toNat <<< 8 % 2 ^ 32 = i.toNat <<< 8 := Nat.mod_eq_of_lt (by rw [Nat.shiftLeft_eq]; omega)
  have h4 : (cmdI op i).toNat = op.toNat ||| i.toNat <<< 8 := by
    simp only [cmdI, BitVec.toNat_or, BitVec.toNat_setWidth, BitVec.toNat_shiftLeft]
    rw [Nat.mod_eq_of_lt (by omega : op.toNat < 2 ^ 32), Nat.mod_eq_of_lt (by omega : i.toNat < 2 ^ 32), h3]
  rw [h4, Nat.or_comm, ← Nat.shiftLeft_add_eq_or_of_lt h1, Nat.shiftLeft_eq]
  omega

/-- A CMDF word, by value (R61). -/
theorem cmdF_toNat (f : Bool) : (cmdF 0x10 f).toNat = 0x10 + 2 ^ 8 * f.toNat := by cases f <;> decide

end Sys2Proof.Laws
end

