-- ==== Sys2Proof/Laws/HostRun.lean ====
section
/-! SUPPORT. What the host's run does, one command at a time. -/

namespace Sys2Proof.Laws

open Sys2Proof Sys2Proof.Machine

/-- A step on a command just issued is that command's execution (60_exceptions.md R182). -/
theorem step_enqueue {c : Command} {i : Instr} (h : decode c = .command i) (s : State) :
    step (s.enqueue c) = exec i s := by
  simp only [step, State.present, enqueue_pending, h]
  rfl

@[simp] theorem ksSkipOutput_nil : ksSkipOutput [] = none := rfl

/-- The last response alone gives the result of `KS_SKIP` (R74). -/
@[simp] theorem ksSkipOutput_append_last (rs : List Response) (r : Response) :
    ksSkipOutput (rs ++ [r]) = some r.result := by simp [ksSkipOutput]

/-- When a command ends the run (R184). -/
theorem HostCommand_error_eq_some (h : HostCommand) (newest : Option Response) (e : StreamError) :
    h.error newest = some e ↔
      h.streamBlock = some e.index ∧
        newest = some ⟨.malformedBlock, .header e.startAddress e.blockSize e.startByte⟩ := by
  constructor
  · intro he
    unfold HostCommand.error at he
    split at he
    · cases he
      exact ⟨‹_›, rfl⟩
    · cases he
  · rintro ⟨h1, rfl⟩
    simp only [HostCommand.error, h1]

/-- A plain command ends no run. -/
@[simp] theorem HostCommand_error_plain (c : Command) (newest : Option Response) :
    (HostCommand.mk c none).error newest = none := rfl

/-- A response with a status other than MALFORMED_BLOCK ends no run. -/
theorem HostCommand_error_of_status {h : HostCommand} {r : Response} (hr : r.status ≠ .malformedBlock) :
    h.error (some r) = none := by
  cases he : h.error (some r) with
  | none => rfl
  | some e =>
    have := ((HostCommand_error_eq_some _ _ _).mp he).2
    cases this
    exact absurd rfl hr

@[simp] theorem runHost_nil (s : State) : runHost [] s = .next ⟨s, none⟩ := rfl

/-- All the host's run can do with a command the block answers: end with the error, or go on. -/
theorem runHost_cons {h : HostCommand} {s t : State} (ht : step (s.enqueue h.command) = .next t)
    (rest : List HostCommand) :
    (∃ e, h.error t.responses.getLast? = some e ∧ runHost (h :: rest) s = .next ⟨t, some e⟩) ∨
    (h.error t.responses.getLast? = none ∧ runHost (h :: rest) s = runHost rest t) := by
  cases he : h.error t.responses.getLast? with
  | some e => exact .inl ⟨e, rfl, by simp only [runHost, ht, he]⟩
  | none => exact .inr ⟨rfl, by simp only [runHost, ht, he]⟩

end Sys2Proof.Laws
end

