-- ==== Sys2Proof/Laws/PerInstr.lean ====
section
/-! SUPPORT. The family RowSelected: the command word that encodes a command selects that command's row of the opcode
table (30_encoding.md R67). One lemma per constructor. -/

namespace Sys2Proof.Laws

open Sys2Proof

/-- The row of the opcode table a command belongs to. -/
def rowOf : Instr → Row
  | .ksInit _ => ⟨.ksInit, 0x00000001, 0xFFFFFFFF⟩
  | .ksNext => ⟨.ksNext, 0x00000002, 0xFFFFFFFF⟩
  | .addrMask _ => ⟨.addrMask, 0x00000003, 0xFFFFFFFF⟩
  | .scrDword _ _ _ => ⟨.scrDword, 0x00000004, 0xFFFE00FF⟩
  | .dscrDword _ _ _ => ⟨.dscrDword, 0x00000005, 0xFFFE00FF⟩
  | .packLe32 _ _ _ _ => ⟨.packLe32, 0x00000006, 0xFFFFFFFF⟩
  | .unpackLe32 _ => ⟨.unpackLe32, 0x00000007, 0xFFFFFFFF⟩
  | .addrLoad _ => ⟨.addrLoad, 0x00000008, 0xFFFFFFFF⟩
  | .encBlock _ _ => ⟨.encBlock, 0x00000010, 0xFFFFFEFF⟩
  | .decBlock _ => ⟨.decBlock, 0x00000011, 0xFFFFFFFF⟩

/-- The encoded word selects the command's own row, which stands in the table. -/
def RowSelected.Statement (i : Instr) : Prop := rowOf i ∈ opcodeRows ∧ (rowOf i).selects (encodeWord i) = true

/-- A CMD0 word selects the row of its opcode. -/
theorem cmd0_selects (op : Opcode) (code : Byte) :
    (Row.mk op (code.setWidth 32) 0xFFFFFFFF).selects (cmd0 code) = true :=
  beq_iff_eq.mpr ((and_full_eq_iff _ _).mpr rfl)

/-- A CMDI word selects the row of its opcode, whatever its index. -/
theorem cmdI_selects (op : Opcode) (code : Byte) (i : BitVec 9) :
    (Row.mk op (code.setWidth 32) 0xFFFE00FF).selects (cmdI code i) = true := by
  have hc : (code.setWidth 32 : Word).toNat = code.toNat := by
    rw [BitVec.toNat_setWidth, Nat.mod_eq_of_lt (by omega)]
  have hi := i.isLt
  have hb := code.isLt
  have h := (and_cmdI_eq_iff (cmdI code i) (code.setWidth 32) (by omega)).mpr
    ⟨by rw [cmdI_toNat, hc]; omega, by rw [cmdI_toNat]; omega⟩
  exact beq_iff_eq.mpr h

/-- A CMDF word selects the ENC_BLOCK row, whatever its FIRST bit. -/
theorem cmdF_selects (f : Bool) : (Row.mk .encBlock 0x00000010 0xFFFFFEFF).selects (cmdF 0x10 f) = true := by
  cases f <;> decide

theorem RowSelected.ksInit (seed : Word) : RowSelected.Statement (.ksInit seed) :=
  ⟨List.mem_of_getElem? (i := 0) rfl, cmd0_selects .ksInit 0x01⟩
theorem RowSelected.ksNext : RowSelected.Statement .ksNext := ⟨List.mem_of_getElem? (i := 1) rfl, cmd0_selects .ksNext 0x02⟩
theorem RowSelected.addrMask (seed : Word) : RowSelected.Statement (.addrMask seed) :=
  ⟨List.mem_of_getElem? (i := 2) rfl, cmd0_selects .addrMask 0x03⟩
theorem RowSelected.scrDword (i : BitVec 9) (w r : Word) : RowSelected.Statement (.scrDword i w r) :=
  ⟨List.mem_of_getElem? (i := 3) rfl, cmdI_selects .scrDword 0x04 i⟩
theorem RowSelected.dscrDword (i : BitVec 9) (w r : Word) : RowSelected.Statement (.dscrDword i w r) :=
  ⟨List.mem_of_getElem? (i := 4) rfl, cmdI_selects .dscrDword 0x05 i⟩
theorem RowSelected.packLe32 (b0 b1 b2 b3 : Byte) : RowSelected.Statement (.packLe32 b0 b1 b2 b3) :=
  ⟨List.mem_of_getElem? (i := 5) rfl, cmd0_selects .packLe32 0x06⟩
theorem RowSelected.unpackLe32 (w : Word) : RowSelected.Statement (.unpackLe32 w) :=
  ⟨List.mem_of_getElem? (i := 6) rfl, cmd0_selects .unpackLe32 0x07⟩
theorem RowSelected.addrLoad (a : Word) : RowSelected.Statement (.addrLoad a) :=
  ⟨List.mem_of_getElem? (i := 7) rfl, cmd0_selects .addrLoad 0x08⟩
theorem RowSelected.encBlock (f : Bool) (p : List Byte) : RowSelected.Statement (.encBlock f p) :=
  ⟨List.mem_of_getElem? (i := 8) rfl, cmdF_selects f⟩
theorem RowSelected.decBlock (blk : List Byte) : RowSelected.Statement (.decBlock blk) :=
  ⟨List.mem_of_getElem? (i := 9) rfl, cmd0_selects .decBlock 0x11⟩

end Sys2Proof.Laws
end

