-- ==== Sys2Proof/Tests/Slice0.lean ====
section
/-! SUPPORT. The model's own tests. Expected values are those of 95_test_vectors.md, sections L2 and L3 (named at each
group), or are read off the rule named. -/

namespace Sys2Proof.Tests

open Sys2Proof Sys2Proof.Machine Sys2Proof.Safety Sys2Proof.Laws

/-! ### Helpers -/

/-- A block with the two registers as given, none for a valid bit of 0, and these moves to come. -/
def block (magic addr : Option Word) (pending : List HostMove := []) : State :=
  { State.reset with
    magic := magic.getD 0, magicV := magic.isSome, addr := addr.getD 0, addrV := addr.isSome, pending := pending }

/-- The outcome is a next state whose newest response and registers (as an observation shows them) are these. -/
def gives (o : StepOutcome) (r : Response) (magic addr : Option Word) : Bool :=
  match o with
  | .next t => t.responses.getLast? == some r && (observe t).magic == magic && (observe t).addr == addr
  | .fault _ => false
  | .refused _ => false

/-- The outcome is a next state that passes the check. -/
def nextAnd (o : StepOutcome) (check : State → Bool) : Bool :=
  match o with
  | .next t => check t
  | .fault _ => false
  | .refused _ => false

/-- The scenario's first chunk: bytes 0 to 1023 modulo 256. -/
def chunk0 : List Byte := (List.range 1024).map (BitVec.ofNat 8)

/-- The scenario's first block, `b0`. -/
def b0 : List Byte := wordsToBytes (encodeWords 0x08002000 0x6569B868 chunk0).1

/-- A block with raw word `k` replaced. -/
def replaceWord (blk : List Byte) (k : Nat) (v : Word) : List Byte := wordsToBytes ((bytesToWords blk).set k v)

/-- The newest response ended with this status and these header fields, and its payload passes the check. -/
def decodesTo (blk : List Byte) (st : Status) (start size offset : Word) (check : List Byte → Bool) : Bool :=
  nextAnd (exec (.decBlock blk) (block (some 3) none)) fun t =>
    t.magic == 3 && t.magicV && !t.addrV &&
    match t.responses.getLast? with
    | some ⟨st', .decoded a n o p⟩ => st' == st && a == start && n == size && o == offset && check p
    | some ⟨st', .header a n o⟩ => st' == st && a == start && n == size && o == offset && check []
    | _ => false

def zeros (n : Nat) : List Byte := List.replicate n 0

theorem chunk0_length : chunk0.length = 1024 := by rw [chunk0, List.length_map, List.length_range]

theorem zeros_length (n : Nat) : (zeros n).length = n := List.length_replicate

/-! ### Well-formedness: each check refuses an ill-formed term (30_encoding.md R65) -/

theorem test_wf_encBlock_short : (Instr.encBlock false (zeros 1023)).wf = false := by
  simp [Instr.wf, zeros_length]
theorem test_wf_encBlock_long : (Instr.encBlock true (zeros 1025)).wf = false := by
  simp [Instr.wf, zeros_length]
theorem test_wf_decBlock_short : (Instr.decBlock (zeros 2047)).wf = false := by
  simp [Instr.wf, zeros_length]
theorem test_wf_decBlock_long : (Instr.decBlock (zeros 2049)).wf = false := by
  simp [Instr.wf, zeros_length]
theorem test_wf_blocks : (Instr.encBlock true (zeros 1024)).wf = true ∧ (Instr.decBlock (zeros 2048)).wf = true := by
  simp [Instr.wf, zeros_length]
theorem test_wf_fixed_widths : (Instr.ksInit 0).wf = true ∧ Instr.ksNext.wf = true ∧ (Instr.addrMask 0).wf = true ∧
    (Instr.scrDword 511 0 0).wf = true ∧ (Instr.dscrDword 0 0 0).wf = true ∧ (Instr.packLe32 0 0 0 0).wf = true ∧
    (Instr.unpackLe32 0).wf = true ∧ (Instr.addrLoad 0).wf = true := by decide

/-! ### Decoding: words written from the opcode map (30_encoding.md R67) -/

theorem test_decode_ksInit :
    decode ⟨0b00000000000000000000000000000001, .word 0x12345678⟩ = .command (.ksInit 0x12345678) := by decide
theorem test_decode_ksNext : decode ⟨0b00000000000000000000000000000010, .empty⟩ = .command .ksNext := by decide
theorem test_decode_addrMask :
    decode ⟨0b00000000000000000000000000000011, .word 0xFFFF⟩ = .command (.addrMask 0xFFFF) := by decide
theorem test_decode_scrDword :
    decode ⟨0b00000000000000010000000100000100, .pair 1 2⟩ = .command (.scrDword 257 1 2) := by decide
theorem test_decode_dscrDword :
    decode ⟨0b00000000000000011111111100000101, .pair 1 2⟩ = .command (.dscrDword 511 1 2) := by decide
theorem test_decode_packLe32 :
    decode ⟨0b00000000000000000000000000000110, .bytes4 1 2 3 4⟩ = .command (.packLe32 1 2 3 4) := by decide
theorem test_decode_unpackLe32 :
    decode ⟨0b00000000000000000000000000000111, .word 9⟩ = .command (.unpackLe32 9) := by decide
theorem test_decode_addrLoad :
    decode ⟨0b00000000000000000000000000001000, .word 9⟩ = .command (.addrLoad 9) := by decide
theorem test_decode_encBlock :
    decode ⟨0b00000000000000000000000000010000, .bytes (zeros 1024)⟩ = .command (.encBlock false (zeros 1024)) :=
  decode_of (op := .encBlock) (by decide) (by simp [assembleOperands, OperandRecord.asBytes,
    zeros_length, fieldF])
theorem test_decode_encBlock_first :
    decode ⟨0b00000000000000000000000100010000, .bytes (zeros 1024)⟩ = .command (.encBlock true (zeros 1024)) :=
  decode_of (op := .encBlock) (by decide) (by simp [assembleOperands, OperandRecord.asBytes,
    zeros_length, fieldF])
theorem test_decode_decBlock :
    decode ⟨0b00000000000000000000000000010001, .bytes (zeros 2048)⟩ = .command (.decBlock (zeros 2048)) :=
  decode_of (op := .decBlock) (by decide) (by simp [assembleOperands, OperandRecord.asBytes,
    zeros_length])

/-- The illegal words of section L2, and the ends of R70's opcode ranges. -/
theorem test_decode_illegal_words :
    ([0x00000000, 0x00000009, 0x0000000F, 0x00000012, 0x000000FF, 0x00000101, 0x00000210, 0x00000111, 0x00020004,
      0x80000002, 0x00020005, 0x00000180] : List Word).all (fun w => decode ⟨w, .empty⟩ == .illegalWord) = true := by
  decide

/-- A legal word beside a record of another shape or width (30_encoding.md R72). -/
theorem test_decode_record_mismatch :
    decode ⟨0x00000001, .empty⟩ = .operandRecord ∧ decode ⟨0x00000010, .bytes [1, 2, 3]⟩ = .operandRecord := by
  decide

/-- No two rows of the opcode table share a word. -/
theorem test_rows_disjoint :
    opcodeRows.Pairwise (fun a b => a.pattern &&& b.mask &&& a.mask ≠ b.pattern &&& a.mask &&& b.mask) := by decide

/-- The encoder writes the words of section L2. -/
theorem test_encode_words :
    encodeWord (.scrDword 498 0 0) = 0x0001F204 ∧ encodeWord (.dscrDword 34 0 0) = 0x00002205 ∧
    encodeWord (.encBlock true []) = 0x00000110 ∧ encodeWord (.encBlock false []) = 0x00000010 ∧
    encodeWord (.decBlock []) = 0x00000011 ∧ encodeWord (.addrLoad 3) = 0x00000008 := by decide

theorem test_decodeTableWord :
    decodeTableWord 32 0x0001FF05 = some (.dscrDword 511 0 0) ∧ decodeTableWord 32 0x101 = none := by decide

/-- The checks of 00_scope.md R6's table, and the model's own sizes against its parameters. -/
theorem test_params_consistent :
    params.lcgA.toNat % 4 = 1 ∧ params.lcgC.toNat % 2 = 1 ∧ params.seed0 ≠ 0 ∧
    params.blockBytes = 4 * params.blockWords ∧
    params.padBefore + params.payloadBytes + params.padAfter = params.blockBytes ∧
    params.offsetDesc.toNat % params.offsetMod + params.offsetBias = params.padBefore ∧
    params.rotEnc + params.rotDec = 32 ∧ params.addrStep.toNat = params.payloadBytes ∧
    Memory.size = params.blockBytes ∧ encOperandBytes = params.payloadBytes ∧ decOperandBytes = params.blockBytes := by
  decide

/-! ### Functions (section L2, tables of the generator, the mask and the rotation) -/

theorem test_lcgPow_7 : lcgPow 7 1 = 0x6569B868 := by decide
theorem test_amask : amask32 0xFFFF = 0x3079 ∧ amask32 0x12345678 = 0x0BFC ∧ amask32 0xECE6 = 0 ∧
    amask32 0xB3 = 0x6B := by decide
theorem test_rotl32 : rotl32 0x12345678 25 = 0xF02468AC ∧ rotl32 0x80000000 7 = 0x40 ∧ rotl32 0x12345678 0 = 0x12345678 := by
  decide

/-- `MemRead` and `MemWrite` (00_scope.md R12): little-endian, canonical, and faulting past byte 2047. -/
theorem test_memWrite_then_read :
    (match memWrite [(5, 7)] 2044 4 0x0A0B0C0D with
      | .ok m => m == [(5, 7), (2044, 0x0D), (2045, 0x0C), (2046, 0x0B), (2047, 0x0A)] &&
          (memRead m 2044 2).toOption == some 0x0C0D && (memRead m 2043 2).toOption == none
      | .error _ => false) = true ∧
    (memWrite [] 2045 4 0).toOption = none := by decide

/-! ### Commands (section L2) -/

theorem test_ksInit_zero : gives (exec (.ksInit 0) (block none none)) ⟨.ok, .none⟩ (some 1) none = true := by decide
theorem test_ksInit_max :
    gives (exec (.ksInit 0xFFFFFFFF) (block (some 9) none)) ⟨.ok, .none⟩ (some 0xFFFFFFFF) none = true := by decide
theorem test_ksNext_wraps :
    gives (exec .ksNext (block (some 0xFFFFFFFF) none)) ⟨.ok, .word 0xAAA77944⟩ (some 0xAAA77944) none = true := by decide
theorem test_ksNext_to_zero : gives (exec .ksNext (block (some 0x5116822B) none)) ⟨.ok, .word 0⟩ (some 0) none = true := by
  decide
theorem test_ksNext_uninitialised : gives (exec .ksNext State.reset) ⟨.uninitialised, .none⟩ none none = true := by decide
theorem test_addrMask :
    gives (exec (.addrMask 0x6569B868) (block none (some 4))) ⟨.ok, .word 0x4E78⟩ none (some 4) = true := by decide
theorem test_scrDword_rotated :
    gives (exec (.scrDword 18 0x11111111 0x22222222) State.reset) ⟨.ok, .word 0x66666666⟩ none none = true := by decide
theorem test_scrDword_seed :
    gives (exec (.scrDword 6 0x6569B868 0x20468762) State.reset) ⟨.ok, .word 0x6569B868⟩ none none = true := by decide
theorem test_dscrDword_rotated :
    gives (exec (.dscrDword 34 0xFFFFFFFF 0x0F0F0F0F) State.reset) ⟨.ok, .word 0xF0F0F0F0⟩ none none = true := by decide
theorem test_dscrDword_plain :
    gives (exec (.dscrDword 3 0xABCDEF01 0x10FEDCBA) State.reset) ⟨.ok, .word 0xBB3333BB⟩ none none = true := by decide
theorem test_packLe32 :
    gives (exec (.packLe32 0x79 0x09 0xAA 0x9A) State.reset) ⟨.ok, .word 0x9AAA0979⟩ none none = true := by decide
theorem test_unpackLe32 :
    gives (exec (.unpackLe32 0x6569B868) State.reset) ⟨.ok, .bytes4 0x68 0xB8 0x69 0x65⟩ none none = true := by decide
theorem test_addrLoad :
    gives (exec (.addrLoad 3) (block (some 8) none)) ⟨.ok, .none⟩ (some 8) (some 3) = true := by decide

/-- Scenario `b0`: words 0 to 7 and 511, MAGIC and ADDR afterwards. -/
theorem test_encBlock_b0 :
    nextAnd (exec (.encBlock true chunk0) (block none (some 0x08002000))) (fun t =>
      t.magic == 0x7BB92E68 && t.magicV && t.addr == 0x08002400 &&
      match t.responses with
      | [⟨.ok, .block blk⟩] =>
        (bytesToWords blk).take 8 == [0x9AAA0979, 0xB32570BE, 0x5F87F97C, 0x173C1AAA, 0x15495ED5, 0x20468762,
          0x6569B868, 0xAA248FC0] && wordAt (bytesToWords blk) 511 == 0x7BB92E68
      | _ => false) = true := by decide +kernel

/-- The zero-seed block: MAGIC = 0 is not normalised. -/
theorem test_encBlock_zero_seed :
    nextAnd (exec (.encBlock false chunk0) (block (some 0) (some 0))) (fun t =>
      t.magic == 0x31823600 && t.addr == 0x400 &&
      match t.responses with
      | [⟨.ok, .block blk⟩] =>
        (bytesToWords blk).take 8 == [0x2AA01931, 0x29E9568E, 0x4FAAA351, 0xE06395D2, 0xA82EC20D, 0x13100A3A, 0,
          0xA513D258]
      | _ => false) = true := by decide +kernel

/-- `b0` with word 0 giving the size 1730, the largest that is legal at 318, and with one more; `b0` with word 3 giving the
largest offset; and the block of zeros (raw seed 0). -/
theorem test_decBlock_bounds_and_zero_seed :
    decodesTo (replaceWord b0 0 0x9AAA0BBB) .ok 0x08002000 1730 0x13E
      (fun p => p.length == 1730 && p.take 4 == [0, 1, 2, 3]) = true ∧
    decodesTo (replaceWord b0 0 0x9AAA0BBA) .malformedBlock 0x08002000 1731 0x13E (fun p => p == []) = true ∧
    decodesTo (replaceWord b0 3 0xE8C3E44B) .ok 0x08002000 1024 0x21F (fun p => p.take 3 == [0xE1, 0xE2, 0xE3]) = true ∧
    decodesTo (zeros 2048) .malformedBlock 0x5410FFF7 0xAA98C11E 0x1FD (fun p => p == []) = true := by decide +kernel

/-! ### The step (section L3, P5) -/

theorem test_step_word : gives (step (State.reset.withFetchWord 32 0x1)) ⟨.ok, .none⟩ (some 1) none = true := by decide

/-- An illegal word comes before UNINITIALISED (60_exceptions.md R176). -/
theorem test_step_illegal :
    gives (step (State.reset.withFetchWord 32 0x80000002)) ⟨.illegalCommand, .none⟩ none none = true := by decide

theorem test_step_reset :
    nextAnd (step (block (some 5) (some 6) [.reset, .issue ⟨2, .empty⟩])) (fun t =>
      t == { State.reset with pending := [.issue ⟨2, .empty⟩] }) = true := by decide

/-! ### The host's run (60_exceptions.md R184; section L3, P6) -/

/-- P6's steps 1 and 2 as a DEC_STREAM, with a third block behind them: the run ends with an error at block index 1, and
the third block is never issued. -/
theorem test_runHost_ends_at_malformed :
    (match decStreamCommands (replaceWord b0 0 0x9AAA0BBB ++ (replaceWord b0 0 0x9AAA0BBA ++ zeros 2049)) with
      | none => false
      | some cs =>
        cs.length == 3 &&
        match runHost cs State.reset with
        | .next r => r.error == some ⟨1, 0x08002000, 1731, 0x13E⟩ && r.state.responses.map Response.status ==
            [.ok, .malformedBlock]
        | .fault _ => false
        | .refused _ => false) = true := by decide +kernel

/-- A single DEC_BLOCK ends no run, whatever its status. -/
theorem test_plain_command_ends_no_run :
    (HostCommand.mk ⟨0x11, .bytes []⟩ none).error (some ⟨.malformedBlock, .header 1 2 3⟩) = none ∧
    (HostCommand.mk ⟨0x11, .bytes []⟩ (some 4)).error (some ⟨.malformedBlock, .header 1 2 3⟩) = some ⟨4, 1, 2, 3⟩ := by
  decide

/-! ### The host's texts (30_encoding.md R73; 60_exceptions.md R186; section L3, P1) -/

theorem test_readLine :
    readLine [] "SCR_DWORD 2, 0, 0xB4DAA136 ; class rotated" = some (.statements [.scrDword 2 0 0xB4DAA136]) ∧
    readLine [("p", [1, 2])] "  ENC_BLOCK.FIRST p" = some (.statements [.encBlockFirst [1, 2]]) ∧
    readLine [] " ; nothing" = some (.statements []) ∧ readLine [] "ks_next" = none ∧ readLine [] "KS_INIT 0x" = none ∧
    readLine [] "KS_SKIP 2" = some (.statements [.ksNext, .ksNext]) ∧
    readLine [("d", [7])] "DEC_STREAM d" = some (.decodeStream [7]) := by decide

/-- R74: the last copy's result, whatever came before it; nothing for no copy. -/
theorem test_ksSkipOutput :
    ksSkipOutput [⟨.ok, .word 5⟩, ⟨.ok, .word 7⟩] = some (.word 7) ∧ ksSkipOutput [] = none := by decide

/-- That the second program assembles to nothing is log entry 8's choice. -/
theorem test_assembleText :
    assembleText [] ["KS_INIT 0xffffffff", "KS_NEXT"] = some [⟨⟨1, .word 0xFFFFFFFF⟩, none⟩, ⟨⟨2, .empty⟩, none⟩] ∧
    assembleText [] ["KS_NEXT", "SCR_DWORD 512, 0, 0"] = none := by decide

/-- R186's own example. -/
theorem test_statusLine : statusLine 0x08002000 1024 0x13E = "addr: 0x08002000; size: 1024; pos: 0x13E" := by decide

/-! ### Witnesses: for each statement with hypotheses, values that meet them all, at the ends of their ranges -/

theorem witness_ResetMoveInvalidatesBothRegisters : (block (some 5) (some 6) [.reset]).pending = .reset :: [] := rfl

theorem witness_StepRunsTheDecodedCommand :
    (block none none [.issue ⟨0x0001FF04, .pair 1 2⟩]).pending = .issue ⟨0x0001FF04, .pair 1 2⟩ :: [] ∧
    decode ⟨0x0001FF04, .pair 1 2⟩ = .command (.scrDword 511 1 2) ∧ (Instr.scrDword 511 1 2).wf = true ∧
    State.reset.pending = [] := by decide

theorem witness_IllegalWordsEndIllegalCommand :
    (block none none [.issue ⟨0x00000012, .word 1⟩]).pending = .issue ⟨0x00000012, .word 1⟩ :: [] ∧
    decodeOpcode 0x00000012 = none ∧ decodeOpcode 0x0001FF04 ≠ none ∧ decodeOpcode 0x00020004 = none ∧
    decodeOpcode 0x00000110 ≠ none ∧ decodeOpcode 0x00000210 = none ∧ decodeOpcode 0x00000011 ≠ none ∧
    decodeOpcode 0x00000111 = none := by decide

theorem witness_DecodeInvertsEncode :
    (Instr.scrDword 0 7 8).wf = true ∧ (Instr.dscrDword 511 7 8).wf = true ∧
    (Instr.encBlock true (zeros 1024)).wf = true := ⟨rfl, rfl, test_wf_blocks.1⟩

theorem witness_EncodeInvertsDecode : decode ⟨0x00000007, .word 9⟩ = .command (.unpackLe32 9) := by decide

theorem witness_WordsOfTheMapDecode : (zeros 1024).length = 1024 ∧ (zeros 2048).length = 2048 :=
  ⟨zeros_length _, zeros_length _⟩

theorem witness_AssemblerRejectsWhatDoesNotFit :
    assemble (.scrDword 511 (2 ^ 32 - 1) 0) = some (.scrDword 511 0xFFFFFFFF 0) ∧ assemble (.scrDword 512 0 0) = none ∧
    assemble (.ksInit (2 ^ 32)) = none ∧ assemble (.packLe32 255 0 0 256) = none ∧
    assemble (.encBlock [1, 2]) = none ∧ assemble (.decBlock []) = none ∧ (511 ≤ 511 ∧ 2 ^ 32 - 1 < 2 ^ 32 ∧ 255 < 256) := by
  decide

theorem witness_RotationRotatesLeft : (1 ≤ 1 ∧ 1 ≤ 31) ∧ (1 ≤ 31 ∧ 31 ≤ 31) ∧ (0 < 32 ∧ 31 < 32) := by decide

theorem witness_NormReplacesZeroByOne : (0xFFFFFFFF : Word) ≠ 0 := by decide

theorem witness_StandardStreamNeverCapturesZero :
    NextMoveIsNoGeneratorCommand (block (some 0x6569B868) none [.issue ⟨0x00000008, .word 0⟩]) ∧
    OnStreamLattice (block (some 0x6569B868) none [.issue ⟨0x00000008, .word 0⟩]) ∧
    (∃ t, step (block (some 0x6569B868) none [.issue ⟨0x00000008, .word 0⟩]) = .next t) ∧
    (block (some 0x6569B868) none).magicV = true := by
  have hd : decode ⟨0x00000008, .word 0⟩ = .command (.addrLoad 0) := by decide
  refine ⟨fun c rest h => ?_, fun _ => ⟨0, rfl⟩, ⟨_, rfl⟩, rfl⟩
  have hc : c = ⟨0x00000008, .word 0⟩ := by
    injection h with h1 _
    injection h1 with h2
    exact h2.symm
  subst hc
  rw [hd]
  exact ⟨by simp, by simp⟩

/-- ENC_BLOCK.FIRST issued with MAGIC = 0, which is off the lattice. -/
theorem witness_StandardStreamNeverCapturesZero_first :
    (block (some 0) (some 4) [.issue ⟨0x00000110, .bytes (zeros 1024)⟩]).pending =
      .issue ⟨0x00000110, .bytes (zeros 1024)⟩ :: [] ∧
    decode ⟨0x00000110, .bytes (zeros 1024)⟩ = .command (.encBlock true (zeros 1024)) ∧
    (block (some 0) (some 4)).addrV = true := ⟨rfl, test_decode_encBlock_first, rfl⟩

theorem witness_ConvertersAreMutuallyInverse : (zeros 2048).length = 2048 ∧ (List.replicate 512 (7 : Word)).length = 512 :=
  ⟨zeros_length _, List.length_replicate⟩

/-- The payload's first and last byte, and the padding on either side of it. -/
theorem witness_PlainImageHoldsThePayload :
    chunk0.length = 1024 ∧ plainByteSpec chunk0 317 = 0 ∧ plainByteSpec chunk0 318 = byteAt chunk0 0 ∧
    plainByteSpec chunk0 1341 = byteAt chunk0 1023 ∧ plainByteSpec chunk0 1342 = 0 ∧ 2047 < 2048 ∧ 511 < 512 :=
  ⟨chunk0_length, rfl, rfl, rfl, rfl, by decide, by decide⟩

theorem witness_MemReadGivesBackMemWrite :
    2044 + 4 ≤ 2048 ∧ 2048 < 2045 + 4 ∧ Memory.wf [(0, 1), (2047, 2)] := by decide

theorem witness_KsNextStepsTheGenerator :
    (block (some 0) none).magicV = true ∧ (block none none).magicV = false := by decide

/-- Both sides of the checks of ENC_BLOCK, for both values of F. Also for WireBlockClosedForm,
BlockCommandsLeaveTheirImageInTheBuffer and FirstBlockIsSeedingThenEncoding. -/
theorem witness_EncBlockEncodesTheChunk :
    chunk0.length = 1024 ∧ (block none (some 4)).magicV = false ∧ (block none (some 4)).addrV = true ∧
    (block (some 3) none).addrV = false ∧ (block (some 3) (some 4)).magicV = true ∧
    (block (some 3) (some 4)).addrV = true := ⟨chunk0_length, rfl, rfl, rfl, rfl, rfl⟩

theorem witness_AddrMaskReturnsTheMask : (0x00010001 : Word).toNat % 2 ^ 16 = (0xFFFF0001 : Word).toNat % 2 ^ 16 := by decide

/-- A block with raw seed 1, the raw words 0 and 3 as given and all other words 0. -/
def tinyBlock (w0 w3 : Word) : List Byte := wordsToBytes ([w0, 0, 0, w3, 0, 0, 1] ++ List.replicate 505 0)

theorem tinyBlock_length (w0 w3 : Word) : (tinyBlock w0 w3).length = 2048 := by
  rw [tinyBlock, wordsToBytes_length, List.length_append, List.length_replicate]
  simp only [List.length_cons, List.length_nil]

/-- Size 0, the largest size that is legal at offset 32, and one more: word 0 is lcg(1) XOR the size, word 3 is lcg^4(1), so
that it decodes to 0. -/
theorem witness_DecBlockDecodesTheBlock :
    (tinyBlock 0xAA98C11E (lcgPow 4 1)).length = 2048 ∧
    startByteSpec (tinyBlock 0xAA98C11E (lcgPow 4 1)) +
      (decodedWordSpec (tinyBlock 0xAA98C11E (lcgPow 4 1)) 0).toNat = 32 ∧
    startByteSpec (tinyBlock 0xAA98C6FE (lcgPow 4 1)) +
      (decodedWordSpec (tinyBlock 0xAA98C6FE (lcgPow 4 1)) 0).toNat = 2048 ∧
    startByteSpec (tinyBlock 0xAA98C6FF (lcgPow 4 1)) +
      (decodedWordSpec (tinyBlock 0xAA98C6FF (lcgPow 4 1)) 0).toNat = 2049 := by
  refine ⟨tinyBlock_length _ _, ?_⟩
  decide +kernel

/-- A largest block that fits, the smallest that does not behind it, and a trailing part of any length below 2048. -/
theorem witness_HostEndsTheDecodeRunAtTheFirstMalformedBlock :
    (∀ b ∈ [tinyBlock 0xAA98C6FE (lcgPow 4 1)], b.length = 2048 ∧ SliceFits b) ∧
    (tinyBlock 0xAA98C6FF (lcgPow 4 1)).length = 2048 ∧ ¬ SliceFits (tinyBlock 0xAA98C6FF (lcgPow 4 1)) ∧
    (zeros 2047).length < 2048 := by
  refine ⟨fun b hb => ?_, tinyBlock_length _ _, ?_, by rw [zeros_length]; decide⟩
  · rw [List.mem_singleton] at hb
    subst hb
    exact ⟨tinyBlock_length _ _, Nat.le_of_eq witness_DecBlockDecodesTheBlock.2.2.1⟩
  · rw [SliceFits, witness_DecBlockDecodesTheBlock.2.2.2]
    decide

theorem witness_BlockOperandOfAnotherWidthIsRefused :
    (zeros 1023).length ≠ 1024 ∧ (zeros 1025).length ≠ 1024 ∧ (zeros 2047).length ≠ 2048 := by simp [zeros_length]

/-- For UninitialisedExactlyWhenAnInvalidRegisterIsRead and OnlyTheListedCommandsWriteEachRegister: a command that neither
steps the generator nor encodes, and one that does. -/
theorem witness_UninitialisedExactlyWhenAnInvalidRegisterIsRead :
    (Instr.addrLoad 4).wf = true ∧ Instr.addrLoad 4 ≠ .ksNext ∧ (∀ f p, Instr.addrLoad 4 ≠ .encBlock f p) ∧
    (∀ seed, Instr.addrLoad 4 ≠ .ksInit seed) ∧ (∀ blk, Instr.addrLoad 4 ≠ .decBlock blk) ∧
    (∀ a, Instr.ksNext ≠ .addrLoad a) ∧ Instr.ksNext.wf = true := by simp [Instr.wf]

theorem witness_MalformedExactlyWhenTheSliceLeavesTheBlock :
    (Instr.decBlock (tinyBlock 0xAA98C6FF (lcgPow 4 1))).wf = true ∧
    2048 < startByteSpec (tinyBlock 0xAA98C6FF (lcgPow 4 1)) +
      (decodedWordSpec (tinyBlock 0xAA98C6FF (lcgPow 4 1)) 0).toNat := by
  refine ⟨by simp [Instr.wf, tinyBlock_length], ?_⟩
  rw [witness_DecBlockDecodesTheBlock.2.2.2]
  decide

/-- A command that ends UNINITIALISED, and what a step of it gives. -/
theorem witness_FailingCommandLeavesTheArchitecturalState :
    ∃ t, (block none none [.issue ⟨2, .empty⟩]).pending = .issue ⟨2, .empty⟩ :: [] ∧
      step (block none none [.issue ⟨2, .empty⟩]) = .next t ∧
      Responds (block none none [.issue ⟨2, .empty⟩]) t ⟨.uninitialised, .none⟩ ∧
      (⟨.uninitialised, .none⟩ : Response).status ≠ .ok := ⟨_, rfl, rfl, rfl, by decide⟩

theorem witness_RepeatingAnIdempotentCommandChangesNothing :
    (Instr.ksInit 0).wf = true ∧ Instr.ksInit 0 ≠ .ksNext ∧ ∀ f p, Instr.ksInit 0 ≠ .encBlock f p := by simp [Instr.wf]

theorem witness_NoCommandClearsAValidBit :
    (∃ t, step (block (some 5) (some 6) [.issue ⟨2, .empty⟩]) = .next t) ∧
    (∀ rest, (block (some 5) (some 6) [.issue ⟨2, .empty⟩]).pending ≠ .reset :: rest) ∧
    (block (some 5) (some 6)).magicV = true ∧ (block (some 5) (some 6)).addrV = true :=
  ⟨⟨_, rfl⟩, by simp [block], rfl, rfl⟩

theorem witness_DecodingDependsOnTheBlockAlone : (zeros 2048).length = 2048 := zeros_length _

/-- A captured seed of 1, the smallest that is not 0, and SEED0. -/
theorem witness_BlockRoundTrip :
    chunk0.length = 1024 ∧ (block (some 1) (some 0xFFFFFC00)).addrV = true ∧
    (block (some 1) (some 0xFFFFFC00)).magicV = true ∧ capturedSeed false (block (some 1) (some 0xFFFFFC00)) ≠ 0 ∧
    capturedSeed true (block none (some 0)) ≠ 0 := ⟨chunk0_length, rfl, rfl, by decide, by decide⟩

theorem witness_ZeroSeedBlockIsMalformed :
    chunk0.length = 1024 ∧ (block (some 0) (some 0)).addrV = true ∧ (block (some 0) (some 0)).magicV = true ∧
    (block (some 0) (some 0)).magic = 0 := ⟨chunk0_length, rfl, rfl, rfl⟩

/-- The largest start address. -/
theorem witness_StreamRoundTrip : 2 ^ 32 - 1 < 2 ^ 32 := by decide

theorem witness_SkipAdvancesTheGenerator : (block (some 0) none).magicV = true := rfl

theorem witness_DecodeRunEndsAtTheFirstMalformedBlock : 0 < (zeros 4095).length / 2048 := by
  rw [zeros_length]
  decide

theorem witness_RunAnswersEveryCommandOnce :
    ProtocolOk (block none none [.issue ⟨2, .empty⟩, .reset, .issue ⟨0, .word 1⟩]) := by
  intro m hm
  simp only [block, List.mem_cons, List.not_mem_nil, or_false] at hm
  rcases hm with rfl | rfl | rfl <;> decide

/-- Two states that differ in MAGIC (not valid), DMAGIC and the buffer. -/
theorem witness_UnobservedStateNeverShows :
    SameView (block none none [.issue ⟨2, .empty⟩])
      { block none none [.issue ⟨2, .empty⟩] with magic := 5, dmagic := 6, img := [(0, 1)] } ∧
    ∃ t, Host.Core.run Sys2Proof.core 1 (block none none [.issue ⟨2, .empty⟩]) = .next t :=
  ⟨⟨rfl, rfl, rfl, rfl⟩, _, rfl⟩

/-- A state with a full buffer, and one with none. -/
theorem witness_EveryStepKeepsTheBufferInvariant :
    BufferInv ((block none none).setBuffer (zeros 2048)) ∧ BufferInv State.reset ∧
    ∃ t, step ((block none none).setBuffer (zeros 2048)) = .next t := by
  refine ⟨⟨ofBytes_wf (by rw [zeros_length]; decide), .inr fun a ha => ?_⟩, ⟨by decide, .inl rfl⟩, _, rfl⟩
  rw [setBuffer_img, ofBytes_read, List.getElem?_eq_getElem (by rw [zeros_length]; exact ha)]
  rfl

end Sys2Proof.Tests
end

