-- ==== Sys2Proof/Proofs/Scope.lean ====
section
/-! The functions of 00_scope.md section 4: the two cases of seed normalisation (R11). -/

namespace Sys2Proof.Laws

open Sys2Proof

/-- The zero rule of `init(seed)` (R11). -/
@[simp] theorem norm_zero : Machine.norm 0 = 1 := if_pos rfl

@[simp] theorem norm_of_ne_zero {s : Word} (hs : s ≠ 0) : Machine.norm s = s := if_neg hs

/-- Settles O11: the two branches of `norm`. -/
theorem normReplacesZeroByOne : Obligations.NormReplacesZeroByOne :=
  ⟨norm_zero, fun _ => norm_of_ne_zero⟩

end Sys2Proof.Laws
end

