-- ==== Sys2Proof/Proofs/Memory.lean ====
section
/-! The transform classes of 20_memory.md section 3 (R45): which indices are in each class, and how many. -/

namespace Sys2Proof.Laws

open Sys2Proof Sys2Proof.Machine

/-! ### The class of one index -/

theorem wordClass_eq_seed_iff (i : Nat) : wordClass i = .seed ↔ i = 6 := by
  rw [wordClass_eq]
  split_ifs with h6 <;> simp [h6]

/-- The seed word is outside the rotated class, because `6 % 16 = 6`. -/
theorem wordClass_eq_rotated_iff (i : Nat) : wordClass i = .rotated ↔ i % 16 = 2 := by
  rw [wordClass_eq]
  split_ifs with h6 h2
  · simp [h6]
  · simp [h2]
  · simp [h2]

theorem wordClass_eq_plain_iff (i : Nat) : wordClass i = .plain ↔ i ≠ 6 ∧ i % 16 ≠ 2 := by
  rw [wordClass_eq]
  split_ifs with h6 h2
  · simp [h6]
  · simp [h2]
  · simp [h6, h2]

/-! ### The indices of a class -/

/-- The indices of class `c` among the first `n`, in order. -/
def classIndices (c : WordClass) (n : Nat) : List Nat :=
  (List.range n).filter fun i => wordClass i == c

theorem classIndices_succ (c : WordClass) (n : Nat) :
    classIndices c (n + 1) = classIndices c n ++ if wordClass n = c then [n] else [] := by
  simp [classIndices, List.range_succ, List.filter_singleton]

theorem classIndices_seed {n : Nat} (hn : 6 < n) : classIndices .seed n = [6] := by
  have hp : ∀ i, (wordClass i == .seed) = (i == 6) := fun i => by
    rw [Bool.eq_iff_iff, beq_iff_eq, beq_iff_eq, wordClass_eq_seed_iff]
  have hone : (List.range n).count 6 = 1 :=
    List.count_eq_one_of_mem List.nodup_range (List.mem_range.2 hn)
  simp only [classIndices, hp, List.filter_beq, hone, List.replicate_one]

/-- One rotated index in each group of 16. -/
theorem classIndices_rotated (n : Nat) :
    classIndices .rotated (16 * n) = (List.range n).map fun k => 16 * k + 2 := by
  induction n with
  | zero => rfl
  | succ n ih =>
    have hlane : (fun i => wordClass i == .rotated) ∘ (16 * n + ·) = fun k => k % 16 == 2 := by
      funext k
      rw [Function.comp_apply, Bool.eq_iff_iff, beq_iff_eq, beq_iff_eq, wordClass_eq_rotated_iff, Nat.mul_add_mod]
    have hgroup : ((List.range 16).map (16 * n + ·)).filter (fun i => wordClass i == .rotated) = [16 * n + 2] := by
      rw [List.filter_map, hlane]
      rfl
    rw [Nat.mul_succ, classIndices, List.range_add, List.filter_append, ← classIndices, ih, hgroup,
      List.range_succ, List.map_append, List.map_singleton]

/-- Every index is counted in exactly one class. -/
theorem length_classIndices_add (n : Nat) :
    (classIndices .seed n).length + (classIndices .rotated n).length + (classIndices .plain n).length = n := by
  induction n with
  | zero => rfl
  | succ n ih =>
    simp only [classIndices_succ, List.length_append]
    cases wordClass n <;> simp <;> omega

/-- Settles O16: the class of each index by its residue, the seed and rotated indices listed, and the plain ones counted
as what those two classes leave of the 512. -/
theorem everyIndexHasOneClass : Obligations.EveryIndexHasOneClass := by
  have hseed : classIndices .seed 512 = [6] := classIndices_seed (by decide)
  have hrot : classIndices .rotated 512 = (List.range 32).map fun k => 16 * k + 2 := classIndices_rotated 32
  have hrotLen : (classIndices .rotated 512).length = 32 := by rw [hrot, List.length_map, List.length_range]
  have hplainLen : (classIndices .plain 512).length = 479 := by
    have hall := length_classIndices_add 512
    rw [hseed, hrotLen, List.length_singleton] at hall
    omega
  exact ⟨wordClass_eq_seed_iff, wordClass_eq_rotated_iff, wordClass_eq_plain_iff, hseed, hrot, hrotLen, hplainLen⟩

end Sys2Proof.Laws
end

/-! The legality of command words (30_encoding.md R68 to R70): the three forms of R61 by value, the words that match no
row, and the step on such a word (60_exceptions.md R172). -/

namespace Sys2Proof.Laws

open Sys2Proof Sys2Proof.Machine Sys2Proof.Safety

/-! ### The words that select no row -/

/-- The word of value `n` is of form CMD0: an opcode without a field, every bit above it zero (R61). -/
def IsCmd0Word (n : Nat) : Prop := n % 256 ∈ [0x01, 0x02, 0x03, 0x06, 0x07, 0x08, 0x11] ∧ n / 2 ^ 8 = 0

/-- The word of value `n` is of form CMDF: the opcode of ENC_BLOCK, every bit above the field `F` zero (R61, R63). -/
def IsCmdFWord (n : Nat) : Prop := n % 256 = 0x10 ∧ n / 2 ^ 9 = 0

/-- The word of value `n` is of form CMDI: the opcode of SCR_DWORD or DSCR_DWORD, every bit above the field `I` zero
(R61, R64). -/
def IsCmdIWord (n : Nat) : Prop := n % 256 ∈ [0x04, 0x05] ∧ n / 2 ^ 17 = 0

/-- With every bit above the opcode zero, the word is its opcode. -/
theorem isCmd0Word_iff (n : Nat) : IsCmd0Word n ↔ n ∈ [0x01, 0x02, 0x03, 0x06, 0x07, 0x08, 0x11] := by
  simp only [IsCmd0Word, List.mem_cons, List.not_mem_nil, or_false]
  omega

/-- R69, R70: the words no row of the opcode table matches, by the tests of the rows in turn. -/
theorem decodeOpcode_eq_none_iff (cmd : Word) :
    decodeOpcode cmd = none ↔ ¬ (IsCmd0Word cmd.toNat ∨ IsCmdFWord cmd.toNat ∨ IsCmdIWord cmd.toNat) := by
  rw [decodeOpcode_eq, isCmd0Word_iff]
  simp only [ite_eq_iff, reduceCtorEq, and_false, false_or, and_true, IsCmdFWord, IsCmdIWord, List.mem_cons,
    List.not_mem_nil, or_false]
  tauto

/-! ### The step on such a word -/

/-- The word is judged alone: the operand record beside it is not looked at (R68, R172). -/
theorem decode_of_no_row {c : Command} (h : decodeOpcode c.word = none) : decode c = .illegalWord := by
  simp only [decode, h]

/-- R172: the move is taken and the status raised, nothing else. -/
theorem step_illegalWord {s : State} {c : Command} {rest : List HostMove} (hp : s.pending = .issue c :: rest)
    (hd : decode c = .illegalWord) :
    step s = .next ({ s with pending := rest }.respond .illegalCommand .none) := by
  rcases step_cases s with ⟨h, -⟩ | ⟨_, h, -⟩ | ⟨c', rest', h, hstep⟩
  · simp [hp] at h
  · simp [hp] at h
  · obtain ⟨rfl, rfl⟩ : c = c' ∧ rest = rest' := by simpa [hp] using h
    rcases hstep with ⟨-, hs⟩ | ⟨hd', -⟩ | ⟨i, hd', -⟩
    · exact hs
    · simp [hd] at hd'
    · simp [hd] at hd'

/-- Settles O4: the three word forms by value, and the frame of the one response a word outside them gets. -/
theorem illegalWordsEndIllegalCommand : Obligations.IllegalWordsEndIllegalCommand := by
  refine ⟨decodeOpcode_eq_none_iff, fun s c rest hp hop => ?_⟩
  refine ⟨_, step_illegalWord hp (decode_of_no_row hop), ?arch, ?dmagic, ?img, ?bytes, ?pending, ?response, rfl⟩
  case arch => exact ⟨respond_magic .., respond_magicV .., respond_addr .., respond_addrV ..⟩
  case dmagic => exact respond_dmagic ..
  case img => exact respond_img ..
  case bytes => exact fun a => congrArg (fun m : Memory => m.read a) (respond_img ..)
  case pending => exact respond_pending ..
  case response => exact responds_of _ _ rfl

end Sys2Proof.Laws

/-! The generator's functions and commands (40_keystream.md sections 1 and 2): the step and the mask by value, and what
KS_INIT, KS_NEXT and ADDR_MASK write, answer and leave alone. -/

namespace Sys2Proof.Laws

open Sys2Proof Sys2Proof.Machine Sys2Proof.Safety

/-! ### The generator's step -/

/-- R80: the machine's word arithmetic is the recurrence modulo 2^32. -/
theorem lcg_toNat (s : Word) : (lcg s).toNat = (0x7FF8A3ED * s.toNat + 0x2AA01D31) % 2 ^ 32 := by
  rw [lcg_eq, BitVec.toNat_add, BitVec.toNat_mul, Nat.mod_add_mod]
  rfl

/-- The multiplier and the increment are odd, so a step flips the lowest bit. -/
theorem lcg_toNat_mod_two (s : Word) : (lcg s).toNat % 2 = (s.toNat + 1) % 2 := by
  rw [lcg_toNat]
  omega

/-- R84: the generator has no fixed state. -/
theorem lcg_ne_self (s : Word) : lcg s ≠ s := by
  intro h
  have hflip := lcg_toNat_mod_two s
  rw [h] at hflip
  omega

/-- Settles O12: the step by value; its powers are the recursion of `lcgPow`. -/
theorem generatorStepIsTheRecurrence : Obligations.GeneratorStepIsTheRecurrence :=
  ⟨lcg_toNat, lcgPow_zero, lcgPow_succ⟩

/-! ### The address mask -/

theorem amask_toNat_le (s : Word) : (amask s).toNat ≤ 0x7672 := by
  rw [amask_toNat]
  exact Nat.le_of_lt_succ (Nat.mod_lt _ (by decide))

/-- The seed 0x12D0 reaches the largest mask (R86). -/
theorem amask_max : amask 0x12D0 = 0x7672 := by decide

/-- R86: `MASK_MUL` and `MASK_MOD` are coprime, so the mask vanishes at the multiples of `MASK_MOD` alone. -/
theorem amask_toNat_eq_zero_iff (s : Word) : (amask s).toNat = 0 ↔ 0x7673 ∣ s.toNat % 2 ^ 16 := by
  have hcoprime : Nat.Coprime 0x7673 0xAA := by decide
  rw [amask_toNat, ← Nat.dvd_iff_mod_eq_zero, hcoprime.dvd_mul_left]

/-- The multiples of `MASK_MOD` among the 16-bit numbers. -/
theorem maskMod_dvd_iff {n : Nat} (hn : n < 2 ^ 16) : 0x7673 ∣ n ↔ n = 0x0000 ∨ n = 0x7673 ∨ n = 0xECE6 := by
  omega

/-- R86: only the low half of the seed counts. -/
theorem amask_congr {x y : Word} (h : x.toNat % 2 ^ 16 = y.toNat % 2 ^ 16) : amask x = amask y :=
  BitVec.eq_of_toNat_eq (by rw [amask_toNat, amask_toNat, h])

/-- The zero extension of the mask keeps its value. -/
theorem amask32_toNat (s : Word) : (amask32 s).toNat = (amask s).toNat :=
  BitVec.toNat_setWidth_of_le (by decide)

/-! ### What a response and a write of MAGIC leave alone -/

theorem sameScratch_of {s t : State} (hdmagic : t.dmagic = s.dmagic) (himg : t.img = s.img)
    (hpending : t.pending = s.pending) : SameScratch s t :=
  ⟨hdmagic, himg, fun a => by rw [himg], hpending⟩

/-- A response touches no register. -/
theorem sameArch_respond (s : State) (st : Status) (res : ResultRecord) : SameArch s (s.respond st res) :=
  ⟨respond_magic .., respond_magicV .., respond_addr .., respond_addrV ..⟩

theorem sameAddr_respond {s u : State} (h : SameAddr s u) (st : Status) (res : ResultRecord) :
    SameAddr s (u.respond st res) := by
  simpa [SameAddr] using h

theorem sameScratch_respond {s u : State} (h : SameScratch s u) (st : Status) (res : ResultRecord) :
    SameScratch s (u.respond st res) := by
  simpa [SameScratch] using h

theorem sameScratch_refl (s : State) : SameScratch s s := sameScratch_of rfl rfl rfl

theorem sameAddr_setMagic (s : State) (v : Word) : SameAddr s (s.setMagic v) :=
  ⟨setMagic_addr .., setMagic_addrV ..⟩

theorem sameScratch_setMagic (s : State) (v : Word) : SameScratch s (s.setMagic v) :=
  sameScratch_of (setMagic_dmagic ..) (setMagic_img ..) (setMagic_pending ..)

theorem sameAddr_seedMagic (s : State) (seed : Word) : SameAddr s (s.seedMagic seed) :=
  ⟨seedMagic_addr .., seedMagic_addrV ..⟩

theorem sameScratch_seedMagic (s : State) (seed : Word) : SameScratch s (s.seedMagic seed) :=
  sameScratch_of (seedMagic_dmagic ..) (seedMagic_img ..) (seedMagic_pending ..)

/-! ### The three commands -/

theorem exec_ksInit (seed : Word) (s : State) :
    exec (.ksInit seed) s = .next ((s.seedMagic seed).respond .ok .none) := rfl

theorem exec_ksNext (s : State) : exec .ksNext s = execKsNext s := rfl

theorem exec_addrMask (seed : Word) (s : State) :
    exec (.addrMask seed) s = .next (s.respond .ok (.word (amask32 seed))) := rfl

/-- `KS_NEXT` with a generator that has been seeded (R84). -/
theorem exec_ksNext_of_valid {s : State} (h : s.magicV = true) :
    exec .ksNext s = .next ((s.setMagic (lcg s.magic)).respond .ok (.word (lcg s.magic))) := by
  rcases execKsNext_cases s with ⟨hv, -⟩ | ⟨-, hs⟩
  · simp [h] at hv
  · rw [exec_ksNext, hs]

/-- `KS_NEXT` before any seeding: the status, and no write (R84, R173). -/
theorem exec_ksNext_of_invalid {s : State} (h : s.magicV = false) :
    exec .ksNext s = .next (s.respond .uninitialised .none) := by
  rcases execKsNext_cases s with ⟨-, hs⟩ | ⟨hv, -⟩
  · rw [exec_ksNext, hs]
  · simp [h] at hv

theorem norm_eq_ite (s : Word) : Machine.norm s = if s = 0 then 1 else s := by
  split_ifs with h
  · rw [h, norm_zero]
  · exact norm_of_ne_zero h

/-- Settles O21: the normalised seed and the set valid bit, and the frame of a write of MAGIC. -/
theorem ksInitSeedsTheGenerator : Obligations.KsInitSeedsTheGenerator := by
  intro seed s
  refine ⟨decode_of (op := .ksInit) rfl rfl, _, exec_ksInit seed s, ?magic, ?valid, ?addr, ?scratch, ?response⟩
  case magic => rw [respond_magic, seedMagic_magic, norm_eq_ite]
  case valid => rw [respond_magicV, seedMagic_magicV]
  case addr => exact sameAddr_respond (sameAddr_seedMagic s seed) ..
  case scratch => exact sameScratch_respond (sameScratch_seedMagic s seed) ..
  case response => exact responds_of _ _ (seedMagic_responses ..)

/-- Settles O22: in the valid case the step by value, which has no fixed state by parity; in the other the response
alone. -/
theorem ksNextStepsTheGenerator : Obligations.KsNextStepsTheGenerator := by
  refine ⟨decode_of (op := .ksNext) rfl rfl, fun s hv => ?valid, fun s hv => ?invalid⟩
  case valid =>
    refine ⟨_, exec_ksNext_of_valid hv, ?value, ?moves, ?stays, ?addr, ?scratch, ?response⟩
    case value => rw [respond_magic, setMagic_magic, lcg_toNat]
    case moves => exact lcg_ne_self s.magic
    case stays => rw [respond_magicV, setMagic_magicV, hv]
    case addr => exact sameAddr_respond (sameAddr_setMagic s _) ..
    case scratch => exact sameScratch_respond (sameScratch_setMagic s _) ..
    case response => exact responds_of _ _ (setMagic_responses ..)
  case invalid =>
    exact ⟨_, exec_ksNext_of_invalid hv, sameArch_respond .., sameScratch_respond (sameScratch_refl s) ..,
      responds_of _ _ rfl⟩

/-- Settles O23: the mask by value, its zeros by coprimality, its bound by the modulus. -/
theorem addrMaskReturnsTheMask : Obligations.AddrMaskReturnsTheMask := by
  refine ⟨fun seed s => ?_, ⟨_, amask_max⟩, fun x y => amask_congr⟩
  refine ⟨decode_of (op := .addrMask) rfl rfl, _, amask32 seed, exec_addrMask seed s, sameArch_respond ..,
    sameScratch_respond (sameScratch_refl s) .., responds_of _ _ rfl, ?value, ?bound, ?zeros⟩
  case value =>
    rw [Nat.mod_eq_of_lt (a := _ % 0x7673) (lt_trans (Nat.mod_lt _ (by decide)) (by decide)), amask32_toNat,
      amask_toNat]
  case bound => rw [amask32_toNat]; exact amask_toNat_le seed
  case zeros =>
    calc amask32 seed = 0 ↔ (amask32 seed).toNat = 0 := BitVec.toNat_inj.symm
      _ ↔ 0x7673 ∣ seed.toNat % 2 ^ 16 := by rw [amask32_toNat, amask_toNat_eq_zero_iff]
      _ ↔ _ := maskMod_dvd_iff (Nat.mod_lt _ (by decide))

end Sys2Proof.Laws

/-! The block encoder (41_block_encoder.md): the plain image, the words that present SCR_DWORD and ENC_BLOCK, the words of
a serialised block, and what SCR_DWORD, ADDR_LOAD and ENC_BLOCK write, answer and leave alone. -/

namespace Sys2Proof.Laws

open Sys2Proof Sys2Proof.Machine Sys2Proof.Safety

/-! ### The plain image -/

theorem getElem?_eq_some_byteAt {bs : List Byte} {a : Nat} (ha : a < bs.length) : bs[a]? = some (byteAt bs a) := by
  rw [byteAt, List.getD_eq_getElem _ _ ha, List.getElem?_eq_getElem ha]

/-- Settles O19: the bytes of the three parts of the image, and its words from its bytes. -/
theorem plainImageHoldsThePayload : Obligations.PlainImageHoldsThePayload := by
  intro p hp
  have hlen : (plainImage p).length = 2048 := plainImage_length hp
  refine ⟨hlen, fun a ha => ?byte, fun i hi => ?word⟩
  case byte => rw [getElem?_eq_some_byteAt (hlen ▸ ha), byteAt_plainImage hp]
  case word => rw [bytesToWords_getElem? (n := 512) hlen hi, funext (byteAt_plainImage hp)]

/-! ### The command words with a field -/

/-- A CMDI word is its opcode plus its index in bits 16 to 8 (R61, R64). -/
theorem ofNat_eq_cmdI (op : Byte) (i : BitVec 9) : BitVec.ofNat 32 (op.toNat + 2 ^ 8 * i.toNat) = cmdI op i := by
  rw [← cmdI_toNat, BitVec.ofNat_toNat, BitVec.setWidth_eq]

/-- The index is read back whole (R64, R72). -/
theorem fieldI_cmdI (op : Byte) (i : BitVec 9) : fieldI (cmdI op i) = i := by
  apply BitVec.eq_of_toNat_eq
  rw [fieldI_toNat, cmdI_toNat]
  omega

theorem decodeOpcode_cmdI_scrDword (i : BitVec 9) : decodeOpcode (cmdI 0x04 i) = some .scrDword := by
  have hvalue : (cmdI 0x04 i).toNat = 4 + 2 ^ 8 * i.toNat := cmdI_toNat 0x04 i
  rw [decodeOpcode_eq, hvalue, if_neg (by omega), if_neg (by omega), if_neg (by omega), if_pos (by omega)]

theorem assembleOperands_scrDword (cmd w r : Word) :
    assembleOperands .scrDword cmd (.pair w r) = some (.scrDword (fieldI cmd) w r) := rfl

theorem decode_scrDword (i : BitVec 9) (w r : Word) : decode ⟨cmdI 0x04 i, .pair w r⟩ = .command (.scrDword i w r) :=
  decode_of (decodeOpcode_cmdI_scrDword i) (by rw [assembleOperands_scrDword, fieldI_cmdI])

theorem decodeOpcode_cmdF_encBlock (f : Bool) : decodeOpcode (cmdF 0x10 f) = some .encBlock := by
  cases f <;> rfl

theorem fieldF_cmdF (f : Bool) : fieldF (cmdF 0x10 f) = f := by cases f <;> rfl

/-- The byte operand has its exact width (R65, R72). -/
theorem assembleOperands_encBlock (cmd : Word) {p : List Byte} (hp : p.length = 1024) :
    assembleOperands .encBlock cmd (.bytes p) = some (.encBlock (fieldF cmd) p) := by
  simp [assembleOperands, OperandRecord.asBytes, hp]

theorem decode_encBlock (f : Bool) {p : List Byte} (hp : p.length = 1024) :
    decode ⟨cmdF 0x10 f, .bytes p⟩ = .command (.encBlock f p) :=
  decode_of (decodeOpcode_cmdF_encBlock f) (by rw [assembleOperands_encBlock _ hp, fieldF_cmdF])

/-! ### The words of a serialised block -/

/-- A word is put together again from its four bytes (20_memory.md R41). -/
theorem le32_byteOf (w : Word) : le32 (byteOf w 0) (byteOf w 1) (byteOf w 2) (byteOf w 3) = w := by
  apply BitVec.eq_of_toNat_eq
  simp only [le32_toNat, byteOf_toNat]
  omega

theorem bytesToWords_wordsToBytes (ws : List Word) : bytesToWords (wordsToBytes ws) = ws := by
  induction ws with
  | nil => rfl
  | cons w ws ih => simp [wordsToBytes, unLe32, bytesToWords, le32_byteOf, ih]

/-- The little-endian words of serialised words are those words. -/
theorem leWord_wordsToBytes {ws : List Word} {i : Nat} (hi : i < ws.length) :
    leWord (byteAt (wordsToBytes ws)) i = wordAt ws i := by
  rw [← wordAt_bytesToWords (wordsToBytes_length ws) hi, bytesToWords_wordsToBytes]

/-- The wire block of a chunk (R105 steps 1, 2, 4 and 5), in stream order. -/
def wireBlock (addr seed : Word) (p : List Byte) : List Byte := wordsToBytes (encodeWords addr seed p).1

theorem wireBlock_length (addr seed : Word) {p : List Byte} (hp : p.length = 1024) :
    (wireBlock addr seed p).length = 2048 := by
  rw [wireBlock, wordsToBytes_length, encodeWords_length addr seed hp]

/-- The wire block by value (R105, R106). -/
theorem leWord_wireBlock (addr seed : Word) {p : List Byte} (hp : p.length = 1024) {i : Nat} (hi : i < 512) :
    leWord (byteAt (wireBlock addr seed p)) i = scrSpec i (plainWordSpec addr seed p i) (lcgPow (i + 1) seed) := by
  rw [wireBlock, leWord_wordsToBytes (by rw [encodeWords_length addr seed hp]; exact hi),
    wordAt_encodeWords addr seed hp hi]

/-! ### What a write of ADDR leaves alone -/

theorem sameMagic_respond {s u : State} (h : SameMagic s u) (st : Status) (res : ResultRecord) :
    SameMagic s (u.respond st res) := by
  simpa [SameMagic] using h

theorem sameMagic_loadAddr (s : State) (a : Word) : SameMagic s (s.loadAddr a) :=
  ⟨loadAddr_magic .., loadAddr_magicV ..⟩

theorem sameScratch_loadAddr (s : State) (a : Word) : SameScratch s (s.loadAddr a) :=
  sameScratch_of (loadAddr_dmagic ..) (loadAddr_img ..) (loadAddr_pending ..)

/-! ### The three commands -/

theorem exec_scrDword (i : BitVec 9) (w r : Word) (s : State) :
    exec (.scrDword i w r) s = .next (s.respond .ok (.word (scr i.toNat w r))) := rfl

theorem exec_addrLoad (a : Word) (s : State) :
    exec (.addrLoad a) s = .next ((s.loadAddr a).respond .ok .none) := rfl

theorem exec_encBlock (f : Bool) (p : List Byte) (s : State) : exec (.encBlock f p) s = execEncBlock f p s := rfl

/-- The registers `ENC_BLOCK` would read (R105, R173): `MAGIC` with `F = 0` alone, `ADDR` always. -/
theorem encUninitialised_iff (f : Bool) (s : State) :
    encUninitialised f s = true ↔ (f = false ∧ s.magicV = false) ∨ s.addrV = false := by
  simp [encUninitialised]

/-- With `F = 1` the generator is seeded before it is read (R105). -/
theorem beginBlock_magicV (f : Bool) (s : State) : (s.beginBlock f).magicV = (f || s.magicV) := by
  cases f <;> rfl

/-- The state a completed `ENC_BLOCK` leaves before its response: the generator stepped 512 times from the captured seed,
the address advanced, the buffer with the wire block. -/
def encodedState (f : Bool) (p : List Byte) (s : State) : State :=
  ((s.beginBlock f).advanceAddr.setMagic (lcgPow 512 (capturedSeed f s))).setBuffer
    (wireBlock s.addr (capturedSeed f s) p)

/-- `ENC_BLOCK` with a register it reads not valid: the status, and no write (R105, R173). -/
theorem exec_encBlock_of_uninitialised {f : Bool} {p : List Byte} {s : State} (hp : p.length = 1024)
    (hu : encUninitialised f s = true) : exec (.encBlock f p) s = .next (s.respond .uninitialised .none) := by
  rcases execEncBlock_cases f p s with ⟨hlen, -⟩ | ⟨-, -, hs⟩ | ⟨-, hu', -⟩
  · exact absurd hp hlen
  · rw [exec_encBlock, hs]
  · simp [hu] at hu'

/-- `ENC_BLOCK` with the registers it reads valid (R105). -/
theorem exec_encBlock_of_initialised {f : Bool} {p : List Byte} {s : State} (hp : p.length = 1024)
    (hu : encUninitialised f s = false) : exec (.encBlock f p) s =
      .next ((encodedState f p s).respond .ok (.block (wireBlock s.addr (capturedSeed f s) p))) := by
  rcases execEncBlock_cases f p s with ⟨hlen, -⟩ | ⟨-, hu', -⟩ | ⟨-, -, hs⟩
  · exact absurd hp hlen
  · simp [hu] at hu'
  · rw [exec_encBlock, hs, beginBlock_magic]
    rfl

/-- Settles O24: the index read back from the word, and the transform with the library's rotation. -/
theorem scrDwordAppliesTheForwardTransform : Obligations.ScrDwordAppliesTheForwardTransform := by
  intro i w r s
  refine ⟨?word, _, exec_scrDword i w r s, sameArch_respond .., sameScratch_respond (sameScratch_refl s) .., ?response⟩
  case word => exact ofNat_eq_cmdI 0x04 i ▸ decode_scrDword i w r
  case response => exact scr_eq_scrSpec i.toNat w r ▸ responds_of _ _ rfl

/-- Settles O28: the loaded address and its valid bit, and the frame of a write of ADDR. -/
theorem addrLoadSetsTheRunningAddress : Obligations.AddrLoadSetsTheRunningAddress := by
  intro a s
  refine ⟨decode_of (op := .addrLoad) rfl rfl, _, exec_addrLoad a s, ?addr, ?valid, ?magic, ?scratch, ?response⟩
  case addr => rw [respond_addr, loadAddr_addr]
  case valid => rw [respond_addrV, loadAddr_addrV]
  case magic => exact sameMagic_respond (sameMagic_loadAddr s a) ..
  case scratch => exact sameScratch_respond (sameScratch_loadAddr s a) ..
  case response => exact responds_of _ _ (loadAddr_responses ..)

/-- Settles O29: in the failing case the response alone; in the other the wire block by value, and the fields of the
state it leaves. -/
theorem encBlockEncodesTheChunk : Obligations.EncBlockEncodesTheChunk := by
  intro f p s hp
  refine ⟨?word, fun hinvalid => ?uninitialised, fun hmagic haddr => ?completes⟩
  case word =>
    have hword : (if f then 0x00000110 else 0x00000010) = cmdF 0x10 f := by cases f <;> rfl
    rw [hword, decode_encBlock f hp]
  case uninitialised =>
    exact ⟨_, exec_encBlock_of_uninitialised hp ((encUninitialised_iff f s).mpr hinvalid), sameArch_respond ..,
      sameScratch_respond (sameScratch_refl s) .., responds_of _ _ rfl⟩
  case completes =>
    have hu : encUninitialised f s = false := by
      rcases hmagic with hf | hv
      · simp [encUninitialised, hf, haddr]
      · simp [encUninitialised, hv, haddr]
    refine ⟨_, _, exec_encBlock_of_initialised hp hu, responds_of _ _ (encodedState_responses ..),
      wireBlock_length _ _ hp, fun i hi => leWord_wireBlock _ _ hp hi, ?magic, ?magicV, ?addr, ?addrV, ?dmagic,
      ?pending⟩
    case magic => simp [encodedState]
    case magicV => simpa [encodedState, beginBlock_magicV] using hmagic
    case addr => simp [encodedState, BitVec.toNat_add]
    case addrV => simpa [encodedState] using haddr
    case dmagic => simp [encodedState]
    case pending => simp [encodedState]

end Sys2Proof.Laws

/-! The block decoder (42_block_decoder.md): the words that present DSCR_DWORD and DEC_BLOCK, the payload slice by
value, and what the two commands write, answer and leave alone. -/

namespace Sys2Proof.Laws

open Sys2Proof Sys2Proof.Machine Sys2Proof.Safety

/-! ### The command words -/

theorem decodeOpcode_cmdI_dscrDword (i : BitVec 9) : decodeOpcode (cmdI 0x05 i) = some .dscrDword := by
  have hvalue : (cmdI 0x05 i).toNat = 5 + 2 ^ 8 * i.toNat := cmdI_toNat 0x05 i
  rw [decodeOpcode_eq, hvalue, if_neg (by omega), if_neg (by omega), if_neg (by omega), if_neg (by omega),
    if_pos (by omega)]

theorem assembleOperands_dscrDword (cmd w r : Word) :
    assembleOperands .dscrDword cmd (.pair w r) = some (.dscrDword (fieldI cmd) w r) := rfl

theorem decode_dscrDword (i : BitVec 9) (w r : Word) :
    decode ⟨cmdI 0x05 i, .pair w r⟩ = .command (.dscrDword i w r) :=
  decode_of (decodeOpcode_cmdI_dscrDword i) (by rw [assembleOperands_dscrDword, fieldI_cmdI])

/-- The byte operand has its exact width (R65, R72). -/
theorem assembleOperands_decBlock (cmd : Word) {blk : List Byte} (hblk : blk.length = 2048) :
    assembleOperands .decBlock cmd (.bytes blk) = some (.decBlock blk) := by
  simp [assembleOperands, OperandRecord.asBytes, hblk]

theorem decode_decBlock {blk : List Byte} (hblk : blk.length = 2048) :
    decode ⟨0x00000011, .bytes blk⟩ = .command (.decBlock blk) :=
  decode_of (op := .decBlock) rfl (assembleOperands_decBlock _ hblk)

/-! ### The payload slice -/

/-- R134: `start_byte` lies in 32..543. -/
theorem startByteSpec_bounds (blk : List Byte) : 32 ≤ startByteSpec blk ∧ startByteSpec blk ≤ 543 := by
  rw [startByteSpec]
  omega

theorem payloadSpec_length (blk : List Byte) : (payloadSpec blk).length = (decodedWordSpec blk 0).toNat := by
  rw [payloadSpec, List.length_map, List.length_range]

theorem payloadSpec_getElem? {blk : List Byte} {k : Nat} (hk : k < (decodedWordSpec blk 0).toNat) :
    (payloadSpec blk)[k]? = some (leByte (decodedWordSpec blk) (startByteSpec blk + k)) := by
  rw [payloadSpec, List.getElem?_map, List.getElem?_range hk, Option.map_some]

/-- R136: the slice of the serialised words is the payload by value, since each of its bytes lies inside the image. -/
theorem decodedImage_slice {blk : List Byte} (hblk : blk.length = 2048) (hfits : SliceFits blk) :
    ((wordsToBytes (decodedWords blk)).drop (startByteSpec blk)).take (decodedWordSpec blk 0).toNat =
      payloadSpec blk := by
  rw [SliceFits] at hfits
  apply List.ext_getElem?
  intro k
  by_cases hk : k < (decodedWordSpec blk 0).toNat
  · rw [List.getElem?_take_of_lt hk, List.getElem?_drop, decodedImage_getElem? hblk (by omega),
      payloadSpec_getElem? hk]
  · have hk : (decodedWordSpec blk 0).toNat ≤ k := Nat.le_of_not_lt hk
    rw [List.getElem?_eq_none (List.length_take_le _ _ |>.trans hk),
      List.getElem?_eq_none (by rwa [payloadSpec_length])]

/-! ### What a DEC_BLOCK leaves -/

/-- R137: neither the decode nor its response touches a register of the encode direction. -/
theorem sameArch_decodedState_respond (blk : List Byte) (s : State) (st : Status) (res : ResultRecord) :
    SameArch s ((decodedState blk s).respond st res) := by
  simp [SameArch, decodedState]

theorem decodedState_respond_pending (blk : List Byte) (s : State) (st : Status) (res : ResultRecord) :
    ((decodedState blk s).respond st res).pending = s.pending := by
  rw [respond_pending, decodedState, setBuffer_pending, setDmagic_pending]

/-- The decode direction's generator, 512 steps from the block's own seed (R132). -/
theorem decodedState_respond_dmagic {blk : List Byte} (hblk : blk.length = 2048) (s : State) (st : Status)
    (res : ResultRecord) :
    ((decodedState blk s).respond st res).dmagic = lcgPow 512 (decodeSeedSpec blk) := by
  rw [respond_dmagic, decodedState, setBuffer_dmagic, setDmagic_dmagic, norm_seed_eq_decodeSeedSpec hblk]

/-! ### The two commands -/

theorem exec_dscrDword (i : BitVec 9) (w r : Word) (s : State) :
    exec (.dscrDword i w r) s = .next (s.respond .ok (.word (dscr i.toNat w r))) := rfl

theorem exec_decBlock (blk : List Byte) (s : State) : exec (.decBlock blk) s = execDecBlock blk s := rfl

/-- `DEC_BLOCK` of a block whose slice stays inside it, by value (R132 to R136). -/
theorem exec_decBlock_of_sliceFits {blk : List Byte} (hblk : blk.length = 2048) (hfits : SliceFits blk) (s : State) :
    exec (.decBlock blk) s =
      .next ((decodedState blk s).respond (decodedResponse blk).status (decodedResponse blk).result) := by
  rcases execDecBlock_cases blk s with ⟨hlen, -⟩ | ⟨-, hout, -⟩ | ⟨-, -, hexec⟩
  · exact absurd hblk hlen
  · rw [startByteOf_eq hblk, blockSizeOf_eq hblk] at hout
    exact absurd hfits (Nat.not_le_of_lt hout)
  · rw [exec_decBlock, hexec, startByteOf_eq hblk, blockSizeOf_eq hblk, startAddressOf_eq hblk,
      decodedImage_slice hblk hfits, decodedResponse]

/-- `DEC_BLOCK` of a block whose slice leaves it (R135). -/
theorem exec_decBlock_of_not_sliceFits {blk : List Byte} (hblk : blk.length = 2048) (hout : ¬ SliceFits blk)
    (s : State) :
    exec (.decBlock blk) s =
      .next ((decodedState blk s).respond (malformedResponse blk).status (malformedResponse blk).result) := by
  rcases execDecBlock_cases blk s with ⟨hlen, -⟩ | ⟨-, -, hexec⟩ | ⟨-, hin, -⟩
  · exact absurd hblk hlen
  · rw [exec_decBlock, hexec, startByteOf_eq hblk, blockSizeOf_eq hblk, startAddressOf_eq hblk, malformedResponse]
  · rw [startByteOf_eq hblk, blockSizeOf_eq hblk] at hin
    exact absurd hin hout

/-- R137: one response, chosen by the block before any state is given, is what `DEC_BLOCK` answers in every state. -/
theorem exec_decBlock_response_uniform {blk : List Byte} (hblk : blk.length = 2048) :
    ∃ r : Response, ∀ s, exec (.decBlock blk) s = .next ((decodedState blk s).respond r.status r.result) := by
  by_cases hfits : SliceFits blk
  · exact ⟨_, exec_decBlock_of_sliceFits hblk hfits⟩
  · exact ⟨_, exec_decBlock_of_not_sliceFits hblk hfits⟩

/-- Settles O25: the index read back from the word, and the transform with the library's rotation. -/
theorem dscrDwordAppliesTheReverseTransform : Obligations.DscrDwordAppliesTheReverseTransform := by
  intro i w r s
  refine ⟨?word, _, exec_dscrDword i w r s, sameArch_respond .., sameScratch_respond (sameScratch_refl s) ..,
    ?response⟩
  case word => exact ofNat_eq_cmdI 0x05 i ▸ decode_dscrDword i w r
  case response => exact dscr_eq_dscrSpec i.toNat w r ▸ responds_of _ _ rfl

/-- Settles O31: the frame and the generator for any response, then the response by whether the slice fits; the largest
payload is what the least start byte leaves of the block. -/
theorem decBlockDecodesTheBlock : Obligations.DecBlockDecodesTheBlock := by
  intro blk s hblk
  obtain ⟨hlow, hhigh⟩ := startByteSpec_bounds blk
  refine ⟨decode_decBlock hblk, ?_⟩
  by_cases hfits : SliceFits blk
  case pos =>
    refine ⟨_, exec_decBlock_of_sliceFits hblk hfits s, sameArch_decodedState_respond ..,
      decodedState_respond_dmagic hblk .., decodedState_respond_pending .., hlow, hhigh, ?_⟩
    rw [SliceFits] at hfits
    rw [if_neg (Nat.not_lt_of_le hfits)]
    refine ⟨payloadSpec blk, responds_of _ _ (decodedState_responses ..), payloadSpec_length blk, ?bound,
      fun k hk => payloadSpec_getElem? (payloadSpec_length blk ▸ hk)⟩
    case bound =>
      rw [payloadSpec_length]
      omega
  case neg =>
    refine ⟨_, exec_decBlock_of_not_sliceFits hblk hfits s, sameArch_decodedState_respond ..,
      decodedState_respond_dmagic hblk .., decodedState_respond_pending .., hlow, hhigh, ?_⟩
    rw [SliceFits] at hfits
    rw [if_pos (Nat.lt_of_not_le hfits)]
    exact responds_of _ _ (decodedState_responses ..)

/-- Settles O40: both states get the response the block fixes, and the generator is left at the block's own seed stepped
512 times. -/
theorem decodingDependsOnTheBlockAlone : Obligations.DecodingDependsOnTheBlockAlone := by
  intro blk s s' hblk
  obtain ⟨r, hexec⟩ := exec_decBlock_response_uniform hblk
  refine ⟨_, _, r, hexec s, hexec s', responds_of _ _ (decodedState_responses ..),
    responds_of _ _ (decodedState_responses ..), sameArch_decodedState_respond .., sameArch_decodedState_respond ..,
    decodedState_respond_pending .., ?_⟩
  rw [decodedState_respond_dmagic hblk, decodedState_respond_dmagic hblk]

end Sys2Proof.Laws

/-! The little-endian converters (43_converters.md): what PACK_LE32 and UNPACK_LE32 answer, by value, in every state. -/

namespace Sys2Proof.Laws

open Sys2Proof Sys2Proof.Machine Sys2Proof.Safety

theorem exec_packLe32 (b0 b1 b2 b3 : Byte) (s : State) :
    exec (.packLe32 b0 b1 b2 b3) s = .next (s.respond .ok (.word (le32 b0 b1 b2 b3))) := rfl

theorem exec_unpackLe32 (w : Word) (s : State) : exec (.unpackLe32 w) s =
    .next (s.respond .ok (.bytes4 (byteOf w 0) (byteOf w 1) (byteOf w 2) (byteOf w 3))) := rfl

/-- Settles O26: the answer alone is added to the state, and its word is the sum of the bytes, which do not overlap. -/
theorem packLe32PacksLittleEndian : Obligations.PackLe32PacksLittleEndian := by
  intro b0 b1 b2 b3 s
  refine ⟨decode_of (op := .packLe32) rfl rfl, _, le32 b0 b1 b2 b3, exec_packLe32 b0 b1 b2 b3 s, sameArch_respond ..,
    sameScratch_respond (sameScratch_refl s) .., responds_of _ _ rfl, ?value⟩
  case value => exact le32_toNat b0 b1 b2 b3

/-- Settles O27: the answer alone is added to the state, and byte `k` of it is the quotient by `2 ^ (8 * k)` modulo
256. -/
theorem unpackLe32UnpacksLittleEndian : Obligations.UnpackLe32UnpacksLittleEndian := by
  intro w s
  refine ⟨decode_of (op := .unpackLe32) rfl rfl, _, exec_unpackLe32 w s, sameArch_respond ..,
    sameScratch_respond (sameScratch_refl s) .., _, _, _, _, responds_of _ _ rfl, ?lowest, ?second, ?third, ?highest⟩
  case lowest => rw [byteOf_toNat, Nat.mul_zero, pow_zero, Nat.div_one]
  case second => exact byteOf_toNat w 1
  case third => exact byteOf_toNat w 2
  case highest => exact byteOf_toNat w 3

end Sys2Proof.Laws

/-! Statuses (60_exceptions.md section 2, R173 to R175): what each command writes and answers, as functions of the
command and the state it meets, and from them which command ends with which status and what a failing command leaves
alone. -/

namespace Sys2Proof.Laws

open Sys2Proof Sys2Proof.Machine Sys2Proof.Safety

/-! ### Everything a well-formed command does -/

/-- The state a command leaves before its response. -/
def writtenState (i : Instr) (s : State) : State :=
  match i with
  | .ksInit seed => s.seedMagic seed
  | .ksNext => if s.magicV then s.setMagic (lcg s.magic) else s
  | .addrMask _ | .scrDword .. | .dscrDword .. | .packLe32 .. | .unpackLe32 _ => s
  | .addrLoad a => s.loadAddr a
  | .encBlock f p => if encUninitialised f s then s else encodedState f p s
  | .decBlock blk => decodedState blk s

/-- The one response a command gives. -/
def responseOf (i : Instr) (s : State) : Response :=
  match i with
  | .ksInit _ | .addrLoad _ => ⟨.ok, .none⟩
  | .ksNext => if s.magicV then ⟨.ok, .word (lcg s.magic)⟩ else ⟨.uninitialised, .none⟩
  | .addrMask seed => ⟨.ok, .word (amask32 seed)⟩
  | .scrDword i w r => ⟨.ok, .word (scr i.toNat w r)⟩
  | .dscrDword i w r => ⟨.ok, .word (dscr i.toNat w r)⟩
  | .packLe32 b0 b1 b2 b3 => ⟨.ok, .word (le32 b0 b1 b2 b3)⟩
  | .unpackLe32 w => ⟨.ok, .bytes4 (byteOf w 0) (byteOf w 1) (byteOf w 2) (byteOf w 3)⟩
  | .encBlock f p =>
    if encUninitialised f s then ⟨.uninitialised, .none⟩ else ⟨.ok, .block (wireBlock s.addr (capturedSeed f s) p)⟩
  | .decBlock blk =>
    if startByteSpec blk + (decodedWordSpec blk 0).toNat ≤ 2048 then decodedResponse blk else malformedResponse blk

theorem responseOf_decBlock_of_sliceFits {blk : List Byte} (hfits : SliceFits blk) (s : State) :
    responseOf (.decBlock blk) s = decodedResponse blk := if_pos hfits

theorem responseOf_decBlock_of_not_sliceFits {blk : List Byte} (hout : ¬ SliceFits blk) (s : State) :
    responseOf (.decBlock blk) s = malformedResponse blk := if_neg hout

/-- The execution of a well-formed command, in every state: its writes, then its response. -/
theorem exec_of_wf {i : Instr} (hwf : i.wf = true) (s : State) :
    exec i s = .next ((writtenState i s).respond (responseOf i s).status (responseOf i s).result) := by
  cases i with
  | ksInit seed => exact exec_ksInit seed s
  | addrMask seed => exact exec_addrMask seed s
  | scrDword i w r => exact exec_scrDword i w r s
  | dscrDword i w r => exact exec_dscrDword i w r s
  | packLe32 b0 b1 b2 b3 => exact exec_packLe32 b0 b1 b2 b3 s
  | unpackLe32 w => exact exec_unpackLe32 w s
  | addrLoad a => exact exec_addrLoad a s
  | ksNext =>
    cases hv : s.magicV with
    | false => simpa [writtenState, responseOf, hv] using exec_ksNext_of_invalid hv
    | true => simpa [writtenState, responseOf, hv] using exec_ksNext_of_valid hv
  | encBlock f p =>
    have hp : p.length = 1024 := by simpa [Instr.wf] using hwf
    cases hu : encUninitialised f s with
    | true => simpa [writtenState, responseOf, hu] using exec_encBlock_of_uninitialised hp hu
    | false => simpa [writtenState, responseOf, hu] using exec_encBlock_of_initialised hp hu
  | decBlock blk =>
    have hblk : blk.length = 2048 := by simpa [Instr.wf] using hwf
    by_cases hfits : SliceFits blk
    · rw [responseOf_decBlock_of_sliceFits hfits]
      exact exec_decBlock_of_sliceFits hblk hfits s
    · rw [responseOf_decBlock_of_not_sliceFits hfits]
      exact exec_decBlock_of_not_sliceFits hblk hfits s

/-- A command whose byte operand has another width answers no next state (30_encoding.md R72). -/
theorem wf_of_exec_eq_next {i : Instr} {s t : State} (h : exec i s = .next t) : i.wf = true := by
  cases i with
  | encBlock f p =>
    rcases execEncBlock_cases f p s with ⟨-, hs⟩ | ⟨hp, -⟩ | ⟨hp, -⟩
    · simp [exec_encBlock, hs] at h
    · simp [Instr.wf, hp]
    · simp [Instr.wf, hp]
  | decBlock blk =>
    rcases execDecBlock_cases blk s with ⟨-, hs⟩ | ⟨hblk, -⟩ | ⟨hblk, -⟩
    · simp [exec_decBlock, hs] at h
    · simp [Instr.wf, hblk]
    · simp [Instr.wf, hblk]
  | _ => rfl

/-- No command's writes touch the responses the host holds. -/
@[simp] theorem writtenState_responses (i : Instr) (s : State) : (writtenState i s).responses = s.responses := by
  cases i with
  | ksNext =>
    simp only [writtenState]
    split
    · exact setMagic_responses ..
    · rfl
  | encBlock f p =>
    simp only [writtenState]
    split
    · rfl
    · exact encodedState_responses ..
  | decBlock blk => exact decodedState_responses blk s
  | _ => rfl

theorem responds_responseOf (i : Instr) (s : State) :
    Responds s ((writtenState i s).respond (responseOf i s).status (responseOf i s).result) (responseOf i s) :=
  responds_of _ _ (writtenState_responses i s)

/-! ### Which command ends with which status -/

/-- R173: the three cases of UNINITIALISED. -/
theorem responseOf_status_eq_uninitialised_iff (i : Instr) (s : State) :
    (responseOf i s).status = .uninitialised ↔
      (i = .ksNext ∧ s.magicV = false) ∨ (∃ p, i = .encBlock false p ∧ s.magicV = false) ∨
        ∃ f p, i = .encBlock f p ∧ s.addrV = false := by
  cases i with
  | ksNext => cases hv : s.magicV <;> simp [responseOf, hv]
  | encBlock f p =>
    have hstatus : (responseOf (.encBlock f p) s).status = .uninitialised ↔ encUninitialised f s = true := by
      cases hu : encUninitialised f s <;> simp [responseOf, hu]
    rw [hstatus, encUninitialised_iff]
    simp
  | decBlock blk =>
    simp only [responseOf]
    split <;> simp [decodedResponse, malformedResponse]
  | _ => simp [responseOf]

/-- R173: no result goes with UNINITIALISED. -/
theorem responseOf_result_of_uninitialised {i : Instr} {s : State} (h : (responseOf i s).status = .uninitialised) :
    (responseOf i s).result = .none := by
  rcases (responseOf_status_eq_uninitialised_iff i s).mp h with ⟨rfl, hv⟩ | ⟨p, rfl, hv⟩ | ⟨f, p, rfl, hv⟩
  · simp [responseOf, hv]
  · simp [responseOf, encUninitialised, hv]
  · simp [responseOf, encUninitialised, hv]

/-- R174: the one case of MALFORMED_BLOCK. -/
theorem responseOf_status_eq_malformedBlock_iff (i : Instr) (s : State) :
    (responseOf i s).status = .malformedBlock ↔
      ∃ blk, i = .decBlock blk ∧ 2048 < startByteSpec blk + (decodedWordSpec blk 0).toNat := by
  cases i with
  | ksNext =>
    simp only [responseOf]
    split <;> simp
  | encBlock f p =>
    simp only [responseOf]
    split <;> simp
  | decBlock blk =>
    by_cases hfits : SliceFits blk
    · rw [responseOf_decBlock_of_sliceFits hfits]
      rw [SliceFits] at hfits
      simpa [decodedResponse] using hfits
    · rw [responseOf_decBlock_of_not_sliceFits hfits]
      rw [SliceFits] at hfits
      simpa [malformedResponse] using hfits
  | _ => simp [responseOf]

/-- R174: the three header fields go with MALFORMED_BLOCK. -/
theorem responseOf_decBlock_of_malformedBlock {blk : List Byte} {s : State}
    (h : (responseOf (.decBlock blk) s).status = .malformedBlock) :
    responseOf (.decBlock blk) s = malformedResponse blk := by
  obtain ⟨_, ⟨rfl⟩, hout⟩ := (responseOf_status_eq_malformedBlock_iff _ s).mp h
  exact responseOf_decBlock_of_not_sliceFits (Nat.not_le_of_lt hout) s

/-! ### The commands that read no register -/

/-- R173: every command but KS_NEXT and ENC_BLOCK answers from its operands alone. -/
theorem responseOf_congr {i : Instr} (hnext : i ≠ .ksNext) (henc : ∀ f p, i ≠ .encBlock f p) (s s' : State) :
    responseOf i s' = responseOf i s := by
  cases i with
  | ksNext => exact absurd rfl hnext
  | encBlock f p => exact absurd rfl (henc f p)
  | _ => rfl

/-- Nothing is written on either side. -/
theorem sameWrites_refl (s s' : State) : SameWrites s s s' s' :=
  ⟨.inl ⟨⟨rfl, rfl⟩, rfl, rfl⟩, .inl ⟨⟨rfl, rfl⟩, rfl, rfl⟩, .inl ⟨rfl, rfl⟩, .inl ⟨fun _ => rfl, fun _ => rfl⟩⟩

theorem sameWrites_seedMagic (seed : Word) (s s' : State) :
    SameWrites s (s.seedMagic seed) s' (s'.seedMagic seed) := by
  refine ⟨.inr ⟨?magic, ?magicV⟩, .inl ⟨sameAddr_seedMagic .., sameAddr_seedMagic ..⟩, .inl ?dmagic, .inl ?img⟩
  case magic => rw [seedMagic_magic, seedMagic_magic]
  case magicV => rw [seedMagic_magicV, seedMagic_magicV]
  case dmagic => exact ⟨seedMagic_dmagic .., seedMagic_dmagic ..⟩
  case img => simp

theorem sameWrites_loadAddr (a : Word) (s s' : State) : SameWrites s (s.loadAddr a) s' (s'.loadAddr a) := by
  refine ⟨.inl ⟨sameMagic_loadAddr .., sameMagic_loadAddr ..⟩, .inr ⟨?addr, ?addrV⟩, .inl ?dmagic, .inl ?img⟩
  case addr => rw [loadAddr_addr, loadAddr_addr]
  case addrV => rw [loadAddr_addrV, loadAddr_addrV]
  case dmagic => exact ⟨loadAddr_dmagic .., loadAddr_dmagic ..⟩
  case img => simp

/-- R137: the decode writes `DMAGIC` and the buffer from the block alone. -/
theorem sameWrites_decodedState (blk : List Byte) (s s' : State) :
    SameWrites s (decodedState blk s) s' (decodedState blk s') := by
  refine ⟨.inl ?magic, .inl ?addr, .inr ?dmagic, .inr ?img⟩
  case magic => simp [SameMagic, decodedState]
  case addr => simp [SameAddr, decodedState]
  case dmagic => simp [decodedState]
  case img => simp [decodedState]

/-- A response writes no register and no byte of the buffer. -/
theorem sameWrites_respond {s u s' u' : State} (h : SameWrites s u s' u') (st : Status) (res : ResultRecord) :
    SameWrites s (u.respond st res) s' (u'.respond st res) := by
  simpa [SameWrites, SameMagic, SameAddr] using h

/-- R173: every command but KS_NEXT and ENC_BLOCK writes values of its operands alone. -/
theorem sameWrites_writtenState {i : Instr} (hnext : i ≠ .ksNext) (henc : ∀ f p, i ≠ .encBlock f p) (s s' : State) :
    SameWrites s (writtenState i s) s' (writtenState i s') := by
  cases i with
  | ksInit seed => exact sameWrites_seedMagic seed s s'
  | ksNext => exact absurd rfl hnext
  | addrLoad a => exact sameWrites_loadAddr a s s'
  | encBlock f p => exact absurd rfl (henc f p)
  | decBlock blk => exact sameWrites_decodedState blk s s'
  | _ => exact sameWrites_refl s s'

/-- Settles O34: the status of each command's response, and for the commands that read no register the same response and
writes in a second state. -/
theorem uninitialisedExactlyWhenAnInvalidRegisterIsRead :
    Obligations.UninitialisedExactlyWhenAnInvalidRegisterIsRead := by
  intro i s hwf
  refine ⟨_, responseOf i s, exec_of_wf hwf s, responds_responseOf i s, responseOf_status_eq_uninitialised_iff i s,
    responseOf_result_of_uninitialised, fun hnext henc s' => ?_⟩
  rw [← responseOf_congr hnext henc s s']
  exact ⟨_, exec_of_wf hwf s', responds_responseOf i s',
    sameWrites_respond (sameWrites_writtenState hnext henc s s') ..⟩

/-- Settles O35: the status of each command's response, and the response itself in the one failing case. -/
theorem malformedExactlyWhenTheSliceLeavesTheBlock : Obligations.MalformedExactlyWhenTheSliceLeavesTheBlock := by
  intro i s hwf
  refine ⟨_, responseOf i s, exec_of_wf hwf s, responds_responseOf i s, responseOf_status_eq_malformedBlock_iff i s, ?_⟩
  rintro blk rfl hstatus
  rw [responseOf_decBlock_of_malformedBlock hstatus, malformedResponse]

/-! ### A command that does not end OK -/

theorem sameArch_refl (s : State) : SameArch s s := ⟨rfl, rfl, rfl, rfl⟩

/-- R137: a decode touches no register of the encode direction. -/
theorem sameArch_decodedState (blk : List Byte) (s : State) : SameArch s (decodedState blk s) := by
  simp [SameArch, decodedState]

/-- R175: KS_NEXT and ENC_BLOCK write nothing when they fail, and DEC_BLOCK never writes the architectural state; the
other commands end OK. -/
theorem sameArch_writtenState_of_status_ne_ok {i : Instr} {s : State} (h : (responseOf i s).status ≠ .ok) :
    SameArch s (writtenState i s) := by
  cases i with
  | ksNext =>
    cases hv : s.magicV with
    | false => simpa [writtenState, hv] using sameArch_refl s
    | true => simp [responseOf, hv] at h
  | encBlock f p =>
    cases hu : encUninitialised f s with
    | true => simpa [writtenState, hu] using sameArch_refl s
    | false => simp [responseOf, hu] at h
  | decBlock blk => exact sameArch_decodedState blk s
  | _ => exact absurd rfl h

/-! ### The responses already given -/

/-- R175: no earlier response is read. -/
theorem responseOf_withResponses (i : Instr) (s : State) (rs : List Response) :
    responseOf i { s with responses := rs } = responseOf i s := by
  cases i <;> rfl

/-- R175: the writes are the same whatever responses came before. -/
theorem writtenState_withResponses (i : Instr) (s : State) (rs : List Response) :
    writtenState i { s with responses := rs } = { writtenState i s with responses := rs } := by
  cases i with
  | ksNext =>
    simp only [writtenState]
    split <;> rfl
  | encBlock f p =>
    have hread : encUninitialised f { s with responses := rs } = encUninitialised f s := rfl
    have hseed : capturedSeed f { s with responses := rs } = capturedSeed f s := rfl
    simp only [writtenState, hread]
    split
    · rfl
    · cases f <;> rfl
  | _ => rfl

/-! ### A step on a command -/

/-- 60_exceptions.md R182: a step on a command is its execution, with the move taken. -/
theorem step_command {s : State} {c : Command} {rest : List HostMove} {i : Instr} (hp : s.pending = .issue c :: rest)
    (hd : decode c = .command i) : step s = exec i { s with pending := rest } := by
  simp only [step, State.present, hp, hd]

/-- The two ways a step on a command answers a next state: the word is illegal, or the command is well formed and
runs. -/
theorem step_issue_cases {s t : State} {c : Command} {rest : List HostMove} (hp : s.pending = .issue c :: rest)
    (hstep : step s = .next t) :
    (decode c = .illegalWord ∧ t = { s with pending := rest }.respond .illegalCommand .none) ∨
    ∃ i, decode c = .command i ∧ i.wf = true ∧
      t = (writtenState i { s with pending := rest }).respond (responseOf i { s with pending := rest }).status
        (responseOf i { s with pending := rest }).result := by
  cases hd : decode c with
  | illegalWord =>
    rw [step_illegalWord hp hd] at hstep
    cases hstep
    exact .inl ⟨rfl, rfl⟩
  | operandRecord => simp [step, State.present, hp, hd] at hstep
  | command i =>
    rw [step_command hp hd] at hstep
    have hwf := wf_of_exec_eq_next hstep
    rw [exec_of_wf hwf] at hstep
    cases hstep
    exact .inr ⟨i, rfl, hwf, rfl⟩

/-- Idling and a reset give no response (60_exceptions.md R182, R193). -/
theorem issue_of_responds {s t : State} {r : Response} (hstep : step s = .next t) (hr : Responds s t r) :
    ∃ c rest, s.pending = .issue c :: rest := by
  rcases step_cases s with ⟨-, hs⟩ | ⟨rest, -, hs⟩ | ⟨c, rest, hp, -⟩
  · rw [hs] at hstep
    cases hstep
    simp [Responds] at hr
  · rw [hs] at hstep
    cases hstep
    simp [Responds] at hr
  · exact ⟨c, rest, hp⟩

/-- R182: a step on a command that answers a next state gives one response. -/
theorem responds_of_step_issue {s t : State} {c : Command} {rest : List HostMove} (hp : s.pending = .issue c :: rest)
    (hstep : step s = .next t) : ∃ r, Responds s t r := by
  rcases step_issue_cases hp hstep with ⟨-, rfl⟩ | ⟨i, -, -, rfl⟩
  · exact ⟨_, responds_of _ _ rfl⟩
  · exact ⟨_, responds_responseOf i { s with pending := rest }⟩

/-- R175: a step that does not end OK leaves the architectural state. -/
theorem sameArch_of_step_status_ne_ok {s t : State} {r : Response} (hstep : step s = .next t) (hr : Responds s t r)
    (hstatus : r.status ≠ .ok) : SameArch s t := by
  obtain ⟨c, rest, hp⟩ := issue_of_responds hstep hr
  rcases step_issue_cases hp hstep with ⟨-, rfl⟩ | ⟨i, -, -, rfl⟩
  · exact sameArch_respond { s with pending := rest } ..
  · obtain rfl := responds_unique hr (responds_responseOf i { s with pending := rest })
    have hwritten := sameArch_writtenState_of_status_ne_ok hstatus
    simpa [SameArch] using hwritten

/-- R175: with other responses before it the step gives the same response and the same rest of the state. -/
theorem step_withResponses {s t : State} {r : Response} (rs : List Response) (hstep : step s = .next t)
    (hr : Responds s t r) : step { s with responses := rs } = .next { t with responses := rs ++ [r] } := by
  obtain ⟨c, rest, hp⟩ := issue_of_responds hstep hr
  rcases step_issue_cases hp hstep with ⟨hd, rfl⟩ | ⟨i, hd, hwf, rfl⟩
  · obtain rfl := responds_unique hr (responds_of _ _ rfl)
    exact step_illegalWord (s := { s with responses := rs }) hp hd
  · obtain rfl := responds_unique hr (responds_responseOf i { s with pending := rest })
    rw [step_command (s := { s with responses := rs }) hp hd, exec_of_wf hwf,
      responseOf_withResponses i { s with pending := rest } rs,
      writtenState_withResponses i { s with pending := rest } rs]
    rfl

/-- Settles O36: a step with a response is a step on a command, and what that command answers and writes decides the
rest. -/
theorem failingCommandLeavesTheArchitecturalState : Obligations.FailingCommandLeavesTheArchitecturalState :=
  ⟨fun _ _ _ => sameArch_of_step_status_ne_ok, fun _ _ _ _ => responds_of_step_issue,
    fun _ _ _ rs => step_withResponses rs⟩

end Sys2Proof.Laws

/-! The encoding (30_encoding.md): the decoder and the encoder undo each other, and what the assembler accepts, rejects
and reads. -/

namespace Sys2Proof.Laws

open Sys2Proof Sys2Proof.Machine Sys2Proof.Safety

/-! ### Decoding an encoded command -/

/-- The encoded word selects the command's own row and, since `decodeOpcode` takes the first, no row before it. -/
theorem decodeOpcode_encodeWord (i : Instr) : decodeOpcode (encodeWord i) = some (rowOf i).op := by
  cases i with
  | ksInit _ => exact (rfl : decodeOpcode (cmd0 0x01) = some .ksInit)
  | ksNext => exact (rfl : decodeOpcode (cmd0 0x02) = some .ksNext)
  | addrMask _ => exact (rfl : decodeOpcode (cmd0 0x03) = some .addrMask)
  | scrDword i _ _ => exact decodeOpcode_cmdI_scrDword i
  | dscrDword i _ _ => exact decodeOpcode_cmdI_dscrDword i
  | packLe32 _ _ _ _ => exact (rfl : decodeOpcode (cmd0 0x06) = some .packLe32)
  | unpackLe32 _ => exact (rfl : decodeOpcode (cmd0 0x07) = some .unpackLe32)
  | addrLoad _ => exact (rfl : decodeOpcode (cmd0 0x08) = some .addrLoad)
  | encBlock f _ => exact decodeOpcode_cmdF_encBlock f
  | decBlock _ => exact (rfl : decodeOpcode (cmd0 0x11) = some .decBlock)

/-- The fields and the operands of an encoded command are read back whole (R63 to R65, R72). -/
theorem assembleOperands_encode {i : Instr} (hwf : i.wf = true) :
    assembleOperands (rowOf i).op (encodeWord i) (encodeOperands i) = some i := by
  cases i with
  | scrDword i w r => exact congrArg (fun i => some (Instr.scrDword i w r)) (fieldI_cmdI 0x04 i)
  | dscrDword i w r => exact congrArg (fun i => some (Instr.dscrDword i w r)) (fieldI_cmdI 0x05 i)
  | encBlock f p =>
    exact (assembleOperands_encBlock _ (by simpa [Instr.wf] using hwf)).trans
      (congrArg (fun f => some (Instr.encBlock f p)) (fieldF_cmdF f))
  | decBlock blk => exact assembleOperands_decBlock _ (by simpa [Instr.wf] using hwf)
  | _ => rfl

/-- Settles O5: the encoded word selects the command's row, and the row takes the command's fields and operands back. -/
theorem decodeInvertsEncode : Obligations.DecodeInvertsEncode :=
  fun i hwf => decode_of (decodeOpcode_encodeWord i) (assembleOperands_encode hwf)

/-! ### Encoding a decoded command -/

theorem asEmpty_eq_some {ops : OperandRecord} {u : Unit} (h : ops.asEmpty = some u) : ops = .empty := by
  cases ops <;> simp_all [OperandRecord.asEmpty]

theorem asWord_eq_some {ops : OperandRecord} {w : Word} (h : ops.asWord = some w) : ops = .word w := by
  cases ops <;> simp_all [OperandRecord.asWord]

theorem asPair_eq_some {ops : OperandRecord} {x : Word × Word} (h : ops.asPair = some x) : ops = .pair x.1 x.2 := by
  cases ops <;> simp_all [OperandRecord.asPair, Prod.ext_iff]

theorem asBytes4_eq_some {ops : OperandRecord} {x : Byte × Byte × Byte × Byte} (h : ops.asBytes4 = some x) :
    ops = .bytes4 x.1 x.2.1 x.2.2.1 x.2.2.2 := by
  cases ops <;> simp_all [OperandRecord.asBytes4, Prod.ext_iff]

theorem asBytes_eq_some {ops : OperandRecord} {n : Nat} {bs : List Byte} (h : ops.asBytes n = some bs) :
    ops = .bytes bs ∧ bs.length = n := by
  cases ops with
  | bytes bs' =>
    obtain ⟨hlen, rfl⟩ : bs'.length = n ∧ bs' = bs := by simpa [OperandRecord.asBytes] using h
    exact ⟨rfl, hlen⟩
  | _ => simp [OperandRecord.asBytes] at h

/-- The one word of an opcode with the fields of `cmd`: its form of R61 with every other bit 0. -/
def wordOfFields (cmd : Word) : Opcode → Word
  | .ksInit => cmd0 0x01
  | .ksNext => cmd0 0x02
  | .addrMask => cmd0 0x03
  | .scrDword => cmdI 0x04 (fieldI cmd)
  | .dscrDword => cmdI 0x05 (fieldI cmd)
  | .packLe32 => cmd0 0x06
  | .unpackLe32 => cmd0 0x07
  | .addrLoad => cmd0 0x08
  | .encBlock => cmdF 0x10 (fieldF cmd)
  | .decBlock => cmd0 0x11

theorem cmd0_toNat (op : Byte) : (cmd0 op).toNat = op.toNat := BitVec.toNat_setWidth_of_le (by decide)

/-- R67, R69: a word that selects a row holds the row's opcode and its fields, and no other bit. -/
theorem wordOfFields_of_decodeOpcode {cmd : Word} {op : Opcode} (h : decodeOpcode cmd = some op) :
    wordOfFields cmd op = cmd := by
  apply BitVec.eq_of_toNat_eq
  rw [decodeOpcode_eq] at h
  split_ifs at h <;> cases h <;>
    simp only [wordOfFields, cmd0_toNat, cmdI_toNat, cmdF_toNat, fieldI_toNat, fieldF_toNat, BitVec.reduceToNat] <;>
    omega

/-- R65, R72: the operands of the command an opcode assembles are the whole record, at its exact width. -/
theorem encode_of_assembleOperands {op : Opcode} {cmd : Word} {ops : OperandRecord} {i : Instr}
    (h : assembleOperands op cmd ops = some i) :
    encodeWord i = wordOfFields cmd op ∧ encodeOperands i = ops ∧ i.wf = true := by
  cases op with
  | ksInit | addrMask | unpackLe32 | addrLoad =>
    obtain ⟨w, hw, rfl⟩ := Option.map_eq_some_iff.mp h
    exact ⟨rfl, (asWord_eq_some hw).symm, rfl⟩
  | ksNext =>
    obtain ⟨u, hu, rfl⟩ := Option.map_eq_some_iff.mp h
    exact ⟨rfl, (asEmpty_eq_some hu).symm, rfl⟩
  | scrDword | dscrDword =>
    obtain ⟨x, hx, rfl⟩ := Option.map_eq_some_iff.mp h
    exact ⟨rfl, (asPair_eq_some hx).symm, rfl⟩
  | packLe32 =>
    obtain ⟨x, hx, rfl⟩ := Option.map_eq_some_iff.mp h
    exact ⟨rfl, (asBytes4_eq_some hx).symm, rfl⟩
  | encBlock | decBlock =>
    obtain ⟨bs, hbs, rfl⟩ := Option.map_eq_some_iff.mp h
    obtain ⟨hops, hlen⟩ := asBytes_eq_some hbs
    exact ⟨rfl, hops.symm, beq_iff_eq.mpr hlen⟩

/-- Settles O6: the word is the one word of its opcode and fields, and the record is the command's operands. -/
theorem encodeInvertsDecode : Obligations.EncodeInvertsDecode := by
  intro c i h
  obtain ⟨op, hop, hops⟩ := decode_command h
  obtain ⟨hword, hrecord, hwf⟩ := encode_of_assembleOperands hops
  refine ⟨?_, hwf⟩
  rw [encode, hword, hrecord, wordOfFields_of_decodeOpcode hop]

/-- Settles O7: each word is the encoding of its command, which the decoder reads back. -/
theorem wordsOfTheMapDecode : Obligations.WordsOfTheMapDecode := by
  intro w r b0 b1 b2 b3 p blk hp hblk
  exact ⟨decodeInvertsEncode (.ksInit w) rfl, decodeInvertsEncode .ksNext rfl, decodeInvertsEncode (.addrMask w) rfl,
    decode_scrDword 2 w r, decode_dscrDword 511 w r, decodeInvertsEncode (.packLe32 b0 b1 b2 b3) rfl,
    decodeInvertsEncode (.unpackLe32 w) rfl, decodeInvertsEncode (.addrLoad w) rfl, decode_encBlock false hp,
    decode_encBlock true hp, decode_decBlock hblk⟩

/-! ### The assembler -/

theorem fitBits_of_lt {w n : Nat} (h : n < 2 ^ w) : fitBits w n = some (BitVec.ofNat w n) := if_pos h

theorem fitBits_eq_none_iff {w n : Nat} : fitBits w n = none ↔ 2 ^ w ≤ n := by simp [fitBits]

/-- A field that does not fit rejects the statement, whatever the checks after it do. -/
theorem fitBits_bind_eq_none_iff {α : Type} {w n : Nat} {f : BitVec w → Option α} :
    (fitBits w n).bind f = none ↔ 2 ^ w ≤ n ∨ f (BitVec.ofNat w n) = none := by
  by_cases h : n < 2 ^ w
  · simp [fitBits_of_lt h, h]
  · simp [fitBits_eq_none_iff.mpr (Nat.le_of_not_lt h), Nat.le_of_not_lt h]

theorem fitBuffer_of_length {n : Nat} {buf : List Byte} (h : buf.length = n) : fitBuffer n buf = some buf := if_pos h

theorem fitBuffer_eq_some {n : Nat} {buf bs : List Byte} (h : fitBuffer n buf = some bs) : bs.length = n := by
  simp only [fitBuffer, Option.ite_none_right_eq_some, Option.some.injEq] at h
  exact h.2 ▸ h.1

theorem fitBuffer_eq_none_iff {n : Nat} {buf : List Byte} : fitBuffer n buf = none ↔ buf.length ≠ n := by
  simp [fitBuffer]

/-- What the assembler accepts can be presented: the byte operands have their exact width (R72, R73). -/
theorem wf_of_assemble {st : Statement} {i : Instr} (h : assemble st = some i) : i.wf = true := by
  cases st with
  | encBlock buf | encBlockFirst buf | decBlock buf =>
    obtain ⟨bs, hbs, rfl⟩ := Option.map_eq_some_iff.mp h
    exact beq_iff_eq.mpr (fitBuffer_eq_some hbs)
  | ksInit _ | addrMask _ | unpackLe32 _ | addrLoad _ =>
    obtain ⟨w, -, rfl⟩ := Option.map_eq_some_iff.mp h
    rfl
  | ksNext => cases h; rfl
  | scrDword _ _ _ | dscrDword _ _ _ =>
    simp only [assemble, Option.bind_eq_bind, Option.bind_eq_some_iff] at h
    obtain ⟨_, -, _, -, _, -, ⟨⟩⟩ := h
    rfl
  | packLe32 _ _ _ _ =>
    simp only [assemble, Option.bind_eq_bind, Option.bind_eq_some_iff] at h
    obtain ⟨_, -, _, -, _, -, _, -, ⟨⟩⟩ := h
    rfl

/-- Settles O8: each operand is checked against its own field, and what passes is presented unchanged. -/
theorem assemblerRejectsWhatDoesNotFit : Obligations.AssemblerRejectsWhatDoesNotFit := by
  refine ⟨fun st i h => ⟨wf_of_assemble h, decodeInvertsEncode i (wf_of_assemble h)⟩, rfl, ?word, ?indexed, ?bytes4,
    ?chunk, ?block, ?ksInit, ?addrMask, ?unpackLe32, ?addrLoad, ?scrDword, ?dscrDword, ?packLe32, ?encBlock,
    ?encBlockFirst, ?decBlock⟩
  case word => exact fun n hn => by simp [assemble, fitBits_of_lt hn]
  case indexed =>
    intro i w r hi hw hr
    have hi : i < 2 ^ 9 := Nat.lt_succ_of_le hi
    simp [assemble, fitBits_of_lt hi, fitBits_of_lt hw, fitBits_of_lt hr]
  case bytes4 =>
    intro b0 b1 b2 b3 (h0 : b0 < 2 ^ 8) (h1 : b1 < 2 ^ 8) (h2 : b2 < 2 ^ 8) (h3 : b3 < 2 ^ 8)
    simp [assemble, fitBits_of_lt h0, fitBits_of_lt h1, fitBits_of_lt h2, fitBits_of_lt h3]
  case chunk => exact fun buf h => by simp [assemble, fitBuffer_of_length h]
  case block => exact fun buf h => by simp [assemble, fitBuffer_of_length h]
  case ksInit | addrMask | unpackLe32 | addrLoad =>
    intro n
    rw [assemble, Option.map_eq_none_iff, fitBits_eq_none_iff]
  case scrDword | dscrDword =>
    intro i w r
    simp only [assemble, Option.bind_eq_bind, fitBits_bind_eq_none_iff, Option.pure_def, reduceCtorEq, or_false]
    exact Iff.rfl
  case packLe32 =>
    intro b0 b1 b2 b3
    simp only [assemble, Option.bind_eq_bind, fitBits_bind_eq_none_iff, Option.pure_def, reduceCtorEq, or_false]
    exact Iff.rfl
  case encBlock | encBlockFirst =>
    intro buf
    rw [assemble, Option.map_eq_none_iff, fitBuffer_eq_none_iff, encOperandBytes_eq]
  case decBlock =>
    intro buf
    rw [assemble, Option.map_eq_none_iff, fitBuffer_eq_none_iff, decOperandBytes_eq]

/-! ### Hexadecimal numbers -/

/-- The low `n` hexadecimal digits of `v`, most significant first. -/
def hexDigits (n v : Nat) : List Nat := (List.range n).map fun k => v / 16 ^ (n - 1 - k) % 16

theorem hexDigits_succ (n v : Nat) : hexDigits (n + 1) v = hexDigits n (v / 16) ++ [v % 16] := by
  have hshift : ∀ k ∈ List.range n, v / 16 ^ (n + 1 - 1 - k) % 16 = v / 16 / 16 ^ (n - 1 - k) % 16 := by
    intro k hk
    have hk := List.mem_range.mp hk
    rw [Nat.div_div_eq_div_mul, ← pow_succ', show n - 1 - k + 1 = n + 1 - 1 - k by omega]
  rw [hexDigits, List.range_succ, List.map_append, List.map_congr_left hshift, ← hexDigits]
  simp

theorem lt_of_mem_hexDigits {n v d : Nat} (h : d ∈ hexDigits n v) : d < 16 := by
  obtain ⟨k, -, rfl⟩ := List.mem_map.mp h
  exact Nat.mod_lt _ (by decide)

/-- The value of digits, most significant first, after those already read. -/
def hexValue (acc : Nat) (ds : List Nat) : Nat := ds.foldl (fun acc d => acc * 16 + d) acc

theorem hexValue_hexDigits (n v : Nat) : hexValue 0 (hexDigits n v) = v % 16 ^ n := by
  induction n generalizing v with
  | zero => simp [hexDigits, hexValue, Nat.mod_one]
  | succ n ih =>
    calc hexValue 0 (hexDigits (n + 1) v) = hexValue 0 (hexDigits n (v / 16)) * 16 + v % 16 := by
          rw [hexDigits_succ, hexValue, List.foldl_append]
          rfl
      _ = v % 16 ^ (n + 1) := by
          rw [ih, pow_succ', Nat.mod_mul]
          ring

theorem hexDigit_hexChar {d : Nat} (hd : d < 16) : hexDigit (hexChar d) = some d := by
  interval_cases d <;> rfl

/-- The reader takes back the digits that the printer's characters stand for. -/
theorem digitsValue_map_hexChar {ds : List Nat} (hds : ∀ d ∈ ds, d < 16) (acc : Nat) :
    digitsValue hexDigit 16 acc (ds.map hexChar) = some (hexValue acc ds) := by
  induction ds generalizing acc with
  | nil => rfl
  | cons d ds ih =>
    obtain ⟨hd, hds⟩ := List.forall_mem_cons.mp hds
    rw [List.map_cons, digitsValue, hexDigit_hexChar hd]
    exact ih hds (acc * 16 + d)

theorem hex8_eq_map_hexDigits (w : Word) : hex8 w = (hexDigits 8 w.toNat).map hexChar := by
  rw [hex8, hexDigits, List.map_map]
  rfl

/-- Settles O9: the eight digits are those of the word, whose value is the word modulo `16 ^ 8`, which is the word. -/
theorem hexadecimalNumbersReadBack : Obligations.HexadecimalNumbersReadBack := by
  intro w
  calc readNumber ('0' :: 'x' :: hex8 w) = digitsValue hexDigit 16 0 (hex8 w) := rfl
    _ = some (w.toNat % 16 ^ 8) := by
      rw [hex8_eq_map_hexDigits, digitsValue_map_hexChar (fun _ => lt_of_mem_hexDigits), hexValue_hexDigits]
    _ = some w.toNat := congrArg some (Nat.mod_eq_of_lt w.isLt)

end Sys2Proof.Laws

/-! Rotation, the transforms and the conversions (00_scope.md R10; 42_block_decoder.md R138; 43_converters.md R162): each
by value or by bit, and what undoes it. -/

namespace Sys2Proof.Laws

open Sys2Proof Sys2Proof.Machine Sys2Proof.Safety

/-! ### Rotation -/

theorem rotl32_zero (x : Word) : rotl32 x 0 = x := if_pos rfl

/-- The rotation by value (R10): what is shifted out at the top comes back at the bottom. -/
theorem rotl32_toNat (x : Word) {n : Nat} (hn : n ≠ 0) :
    (rotl32 x n).toNat = (x.toNat * 2 ^ n ||| x.toNat / 2 ^ (32 - n)) % 2 ^ 32 := by
  have hlow : x.toNat / 2 ^ (32 - n) < 2 ^ 32 := lt_of_le_of_lt (Nat.div_le_self _ _) x.isLt
  rw [rotl32, if_neg hn, BitVec.toNat_or, BitVec.toNat_shiftLeft, BitVec.toNat_ushiftRight, Nat.shiftLeft_eq,
    Nat.shiftRight_eq_div_pow, Nat.or_mod_two_pow, Nat.mod_eq_of_lt hlow]

/-- The rotation by bit (R10). -/
theorem getLsbD_rotl32 (x : Word) {n k : Nat} (hn : n < 32) (hk : k < 32) :
    (rotl32 x n).getLsbD k = x.getLsbD ((k + 32 - n) % 32) := by
  rw [rotl32_eq_rotateLeft x hn, BitVec.getLsbD_rotateLeft_of_le hn]
  by_cases h : k < n
  · rw [decide_eq_true h, cond_true, show (k + 32 - n) % 32 = 32 - n + k by omega]
  · rw [decide_eq_false h, cond_false, show (k + 32 - n) % 32 = k - n by omega]
    simp [hk]

/-- Two rotations whose amounts sum to the width cancel. -/
theorem rotl32_rotl32_cancel (x : Word) {m n : Nat} (hm : m < 32) (hn : n < 32) (h : m + n = 32) :
    rotl32 (rotl32 x m) n = x := by
  apply BitVec.eq_of_getLsbD_eq
  intro k hk
  rw [getLsbD_rotl32 _ hn hk, getLsbD_rotl32 _ hm (Nat.mod_lt _ (by decide)),
    show ((k + 32 - n) % 32 + 32 - m) % 32 = k by omega]

/-- Settles O10: the rotation by value and by bit, and the amounts 25 and 7, which sum to 32. -/
theorem rotationRotatesLeft : Obligations.RotationRotatesLeft :=
  ⟨rotl32_zero, fun x _ hlow _ => rotl32_toNat x (Nat.ne_of_gt hlow), fun x _ _ => getLsbD_rotl32 x,
    fun x => rotl32_rotl32_cancel x (by decide) (by decide) rfl⟩

/-! ### The transforms -/

/-- R138: the reverse rotation undoes the forward one before the XOR cancels. -/
theorem dscr_scr (i : Nat) (w r : Word) : dscr i (scr i w r) r = w := by
  rw [dscr_eq, scr_eq]
  split_ifs
  · rfl
  · rw [rotl32_rotl32_cancel _ (by decide) (by decide) rfl, BitVec.xor_assoc, BitVec.xor_self, BitVec.xor_zero]
  · rw [BitVec.xor_assoc, BitVec.xor_self, BitVec.xor_zero]

theorem scr_dscr (i : Nat) (w r : Word) : scr i (dscr i w r) r = w := by
  rw [scr_eq, dscr_eq]
  split_ifs
  · rfl
  · rw [BitVec.xor_assoc, BitVec.xor_self, BitVec.xor_zero, rotl32_rotl32_cancel _ (by decide) (by decide) rfl]
  · rw [BitVec.xor_assoc, BitVec.xor_self, BitVec.xor_zero]

/-- Settles O17: the two inverse directions, by the class of the index. -/
theorem wordTransformsAreMutuallyInverse : Obligations.WordTransformsAreMutuallyInverse :=
  fun i w r => ⟨dscr_scr i w r, scr_dscr i w r⟩

/-! ### The converters -/

theorem unLe32_le32 (b0 b1 b2 b3 : Byte) : unLe32 (le32 b0 b1 b2 b3) = [b0, b1, b2, b3] := by
  have hbyte : ∀ (k : Nat) (b : Byte), (le32 b0 b1 b2 b3).toNat / 2 ^ (8 * k) % 256 = b.toNat →
      byteOf (le32 b0 b1 b2 b3) k = b := fun k b h => BitVec.eq_of_toNat_eq ((byteOf_toNat _ k).trans h)
  rw [unLe32, hbyte 0 b0, hbyte 1 b1, hbyte 2 b2, hbyte 3 b3] <;> rw [le32_toNat] <;> omega

/-- Whole words of bytes come back from their words (R162). -/
theorem wordsToBytes_bytesToWords {n : Nat} {bs : List Byte} (h : bs.length = 4 * n) :
    wordsToBytes (bytesToWords bs) = bs := by
  induction n generalizing bs with
  | zero => rw [List.eq_nil_of_length_eq_zero h]; rfl
  | succ n ih =>
    match bs, h with
    | b0 :: b1 :: b2 :: b3 :: rest, h =>
      have hrest : rest.length = 4 * n := by simp only [List.length_cons] at h; omega
      rw [bytesToWords, wordsToBytes, unLe32_le32, ih hrest]
      rfl
    | [], h | [_], h | [_, _], h | [_, _, _], h => simp only [List.length_cons, List.length_nil] at h; omega

/-- Settles O18: the conversions of one dword, and of a block word by word. -/
theorem convertersAreMutuallyInverse : Obligations.ConvertersAreMutuallyInverse :=
  ⟨le32_byteOf, unLe32_le32, fun _ h => wordsToBytes_bytesToWords (n := 512) h,
    fun ws _ => bytesToWords_wordsToBytes ws⟩

end Sys2Proof.Laws

/-! MemRead after MemWrite (00_scope.md R12): a range of a canonical buffer read as the bytes at its addresses. -/

namespace Sys2Proof.Laws

open Sys2Proof Sys2Proof.Machine

/-! ### A range of the buffer -/

theorem read_eq_none_of_lt {m : Memory} {a : Nat} (h : ∀ c ∈ m, a < c.1) : m.read a = none := by
  have hnone : m.find? (fun c => c.1 == a) = none :=
    List.find?_eq_none.mpr fun c hc => by simpa using Nat.ne_of_gt (h c hc)
  rw [Memory.read, hnone, Option.map_none]

/-- In rising order the byte at the first address of a range stands before the others. -/
theorem slice_succ {m : Memory} (h : Rising m) (a n : Nat) :
    m.slice a (n + 1) = (m.read a).toList ++ m.slice (a + 1) n := by
  have hend : a + (n + 1) = a + 1 + n := by omega
  induction m with
  | nil => rfl
  | cons c rest ih =>
    obtain ⟨hc, hrest⟩ := List.pairwise_cons.mp h
    have ih := ih hrest
    simp only [Memory.slice, hend] at ih ⊢
    rcases Nat.lt_trichotomy c.1 a with hlt | heq | hgt
    · have hread : Memory.read (c :: rest) a = Memory.read rest a := by
        have : (c.1 == a) = false := by simp; omega
        simp [Memory.read, this]
      rw [hread, List.filter_cons_of_neg (by simp; omega), List.filter_cons_of_neg (by simp; omega), ih]
    · have hread : Memory.read (c :: rest) a = some c.2 := by simp [Memory.read, heq]
      have hnone : Memory.read rest a = none := read_eq_none_of_lt fun d hd => heq ▸ hc d hd
      rw [hread, List.filter_cons_of_pos (by simp; omega), List.filter_cons_of_neg (by simp; omega), List.map_cons, ih,
        hnone]
      rfl
    · have hall : ∀ d ∈ c :: rest, a < d.1 :=
        List.forall_mem_cons.mpr ⟨hgt, fun d hd => Nat.lt_trans hgt (hc d hd)⟩
      rw [read_eq_none_of_lt hall, Option.toList_none, List.nil_append]
      refine congrArg (List.map Prod.snd) (List.filter_congr fun d hd => ?_)
      have hd := hall d hd
      simp [Nat.le_of_lt hd, Nat.succ_le_of_lt hd]

/-- A range of a rising buffer holds the bytes its addresses read as. -/
theorem slice_eq_of_read {m : Memory} (h : Rising m) {bs : List Byte} {a : Nat}
    (hread : ∀ k, k < bs.length → m.read (a + k) = bs[k]?) : m.slice a bs.length = bs := by
  induction bs generalizing a with
  | nil =>
    have : ∀ c ∈ m, ¬ (decide (a ≤ c.1) && decide (c.1 < a + 0)) = true := fun c _ => by simp
    rw [Memory.slice, List.length_nil, List.filter_eq_nil_iff.mpr this, List.map_nil]
  | cons b bs ih =>
    have hfirst : m.read a = some b := hread 0 (Nat.succ_pos _)
    have hlater : ∀ k, k < bs.length → m.read (a + 1 + k) = bs[k]? := fun k hk => by
      rw [Nat.add_assoc, Nat.add_comm 1 k]
      exact hread (k + 1) (Nat.succ_lt_succ hk)
    rw [List.length_cons, slice_succ h, hfirst, ih hlater]
    rfl

/-! ### Numbers as bytes -/

/-- The low `n` bytes of a number, read back (20_memory.md R41). -/
theorem leNat_leBytes (n v : Nat) : leNat (leBytes n v) = v % 256 ^ n := by
  induction n generalizing v with
  | zero => rw [pow_zero, Nat.mod_one]; rfl
  | succ n ih => rw [leBytes, leNat, ih, BitVec.toNat_ofNat, pow_succ' 256 n, Nat.mod_mul]

theorem memRead_of_lt {m : Memory} {a n : Nat} (h : Memory.size < a + n) :
    memRead m a n = .error (.bufferRange a n) := by
  rw [memRead, Memory.readBytes, if_neg (Nat.not_le_of_lt h)]

/-- A stored number reads back, of its low bytes where it is too wide (log entry 9). -/
theorem memRead_of_memWrite {m m' : Memory} {a n v : Nat} (hm : m.wf) (h : memWrite m a n v = .ok m') :
    memRead m' a n = .ok (v % 256 ^ n) := by
  obtain ⟨hrange, hwf, hread, -⟩ := memWrite_spec h
  have hslice : m'.slice a n = leBytes n v := by
    have := slice_eq_of_read (hwf hm).1 (bs := leBytes n v) (a := a) (by simpa using hread)
    rwa [leBytes_length] at this
  have hbytes : m'.readBytes a n = .ok (leBytes n v) := by
    rw [Memory.readBytes, if_pos hrange, hslice, if_pos (leBytes_length n v)]
  simp only [memRead, hbytes, leNat_leBytes]

/-- Settles O20: inside the image the stored bytes are the range read back; outside it both operations fault. -/
theorem memReadGivesBackMemWrite : Obligations.MemReadGivesBackMemWrite := by
  intro m a n v
  refine ⟨fun hin hm => ?inside, fun hout => ?outside⟩
  case inside =>
    have hw : memWrite m a n v = .ok (m.writeBytes a (leBytes n v)) := if_pos hin
    obtain ⟨-, hwf, -, hframe⟩ := memWrite_spec hw
    exact ⟨_, hw, memRead_of_memWrite hm hw, hwf hm, hframe⟩
  case outside => exact ⟨if_neg (Nat.not_le_of_lt hout), memRead_of_lt hout⟩

end Sys2Proof.Laws

/-! The orbits of the generator (40_keystream.md section 3, R87 to R89): its powers in closed form, its one cycle, and
the 512-step lattice of the first-block seed. -/

namespace Sys2Proof.Laws

open Sys2Proof Sys2Proof.Machine Sys2Proof.Safety

/-! ### The powers in closed form -/

/-- The sum of the first `n` powers of the multiplier. -/
def lcgSum : Nat → Nat
  | 0 => 0
  | n + 1 => 0x7FF8A3ED * lcgSum n + 1

theorem lcg_add (s x : Word) : lcg (s + x) = lcg s + 0x7FF8A3ED * x := by
  simp only [lcg_eq]
  ring

theorem ofNat_lcgSum_succ (n : Nat) :
    BitVec.ofNat 32 (lcgSum (n + 1)) = 0x7FF8A3ED * BitVec.ofNat 32 (lcgSum n) + 1 := by
  rw [lcgSum, BitVec.ofNat_add, BitVec.ofNat_mul]
  rfl

/-- `n` steps move a state by its first difference, `lcgSum n` times. -/
theorem lcgPow_eq_add_mul (n : Nat) (s : Word) : lcgPow n s = s + BitVec.ofNat 32 (lcgSum n) * (lcg s - s) := by
  induction n with
  | zero => simp [lcgSum]
  | succ n ih =>
    rw [lcgPow_succ, ih, lcg_add, ofNat_lcgSum_succ]
    ring

theorem lcgSum_add (m n : Nat) :
    lcgSum (m + n) = lcgSum m + lcgSum n + 0x7FF8A3EC * lcgSum m * lcgSum n := by
  induction m with
  | zero => simp [lcgSum]
  | succ m ih =>
    rw [Nat.succ_add, lcgSum, ih, lcgSum]
    ring

/-- The multiplier is 1 modulo 4, so doubling the number of steps doubles the power of two in the sum, and no more. -/
theorem lcgSum_two_mul (n : Nat) : lcgSum (2 * n) = 2 * (lcgSum n * (0x3FFC51F6 * lcgSum n + 1)) := by
  rw [Nat.two_mul, lcgSum_add]
  ring

theorem lcgSum_mod_two (n : Nat) : lcgSum n % 2 = n % 2 := by
  induction n with
  | zero => rfl
  | succ n ih => rw [lcgSum]; omega

/-- The sum holds exactly the powers of two of the number of steps. -/
theorem two_pow_dvd_lcgSum_iff (k n : Nat) : 2 ^ k ∣ lcgSum n ↔ 2 ^ k ∣ n := by
  induction k generalizing n with
  | zero => simp
  | succ k ih =>
    have hparity := lcgSum_mod_two n
    rcases Nat.even_or_odd' n with ⟨m, rfl | rfl⟩
    · have hodd : Nat.Coprime (2 ^ k) (0x3FFC51F6 * lcgSum m + 1) :=
        Nat.Coprime.pow_left k ((Nat.coprime_two_left).mpr ⟨0x1FFE28FB * lcgSum m, by ring⟩)
      rw [lcgSum_two_mul, pow_succ', Nat.mul_dvd_mul_iff_left Nat.two_pos, Nat.mul_dvd_mul_iff_left Nat.two_pos,
        hodd.dvd_mul_right, ih]
    · have hnot : ∀ x, x % 2 = 1 → ¬ 2 ^ (k + 1) ∣ x := fun x hx hd => by
        have := dvd_trans (Dvd.intro_left (2 ^ k) (pow_succ 2 k).symm) hd
        omega
      exact iff_of_false (hnot _ (by omega)) (hnot _ (by omega))

/-! ### The cycle -/

/-- The first difference of every state is odd. -/
theorem lcg_sub_self_mod_two (s : Word) : (lcg s - s).toNat % 2 = 1 := by
  have hflip := lcg_toNat_mod_two s
  rw [BitVec.toNat_sub]
  omega

/-- R87: the period of every state is `2 ^ 32`, since its first difference is invertible. -/
theorem lcgPow_eq_self_iff (s : Word) (n : Nat) : lcgPow n s = s ↔ 2 ^ 32 ∣ n := by
  have hunit : Nat.Coprime (2 ^ 32) (lcg s - s).toNat :=
    Nat.Coprime.pow_left 32 (Nat.coprime_two_left.mpr (Nat.odd_iff.mpr (lcg_sub_self_mod_two s)))
  calc lcgPow n s = s ↔ BitVec.ofNat 32 (lcgSum n) * (lcg s - s) = 0 := by
        rw [lcgPow_eq_add_mul]
        exact add_eq_left
    _ ↔ 2 ^ 32 ∣ lcgSum n * (lcg s - s).toNat := by
        rw [← BitVec.toNat_inj, BitVec.toNat_mul, BitVec.toNat_ofNat, Nat.mod_mul_mod, Nat.dvd_iff_mod_eq_zero]
        rfl
    _ ↔ 2 ^ 32 ∣ n := by rw [hunit.dvd_mul_right, two_pow_dvd_lcgSum_iff]

/-- Two powers meet exactly where their exponents agree modulo the period. -/
theorem lcgPow_eq_lcgPow_iff (s : Word) (m n : Nat) : lcgPow m s = lcgPow n s ↔ m % 2 ^ 32 = n % 2 ^ 32 := by
  wlog hle : m ≤ n generalizing m n
  · rw [eq_comm, this n m (Nat.le_of_not_le hle), eq_comm]
  · obtain ⟨d, rfl⟩ := Nat.exists_eq_add_of_le hle
    rw [Nat.add_comm m d, lcgPow_add, eq_comm, lcgPow_eq_self_iff]
    omega

/-- R87: the `2 ^ 32` powers below the period are distinct, so they are all the states. -/
theorem exists_lcgPow_eq (s t : Word) : ∃ n, n < 2 ^ 32 ∧ lcgPow n s = t := by
  have hinj : Function.Injective fun n : Fin (2 ^ 32) => (lcgPow n s).toFin := by
    intro m n h
    have hmod := (lcgPow_eq_lcgPow_iff s m n).mp (BitVec.toFin_inj.mp h)
    rw [Nat.mod_eq_of_lt m.isLt, Nat.mod_eq_of_lt n.isLt] at hmod
    exact Fin.ext hmod
  obtain ⟨n, hn⟩ := Finite.surjective_of_injective hinj t.toFin
  exact ⟨n, n.isLt, BitVec.toFin_inj.mp hn⟩

/-- Settles O13: the period of every state, the cycle through all of them, and the period of block seeds. -/
theorem generatorHasFullPeriod : Obligations.GeneratorHasFullPeriod := by
  refine ⟨lcgPow_eq_self_iff, fun s t => ?cycle, fun s k => ?blocks⟩
  case cycle =>
    obtain ⟨n, hn, rfl⟩ := exists_lcgPow_eq s t
    refine ⟨n, ⟨hn, rfl⟩, fun m ⟨hm, heq⟩ => ?_⟩
    have hmod := (lcgPow_eq_lcgPow_iff s m n).mp heq
    rwa [Nat.mod_eq_of_lt hm, Nat.mod_eq_of_lt hn] at hmod
  case blocks => rw [lcgPow_eq_self_iff, show 2 ^ 32 = 512 * 2 ^ 23 by rfl, Nat.mul_dvd_mul_iff_left (by decide)]

/-! ### The orbit of the first-block seed -/

theorem lcgPow_seven_one : lcgPow 7 1 = 0x6569B868 := by decide

/-- Settles O15: the first-block seed is seven steps after 1, so its keystream is seven values ahead. -/
theorem firstSeedIsOnTheOrbitOfOne : Obligations.FirstSeedIsOnTheOrbitOfOne := by
  refine ⟨lcgPow_seven_one, fun i => ?_⟩
  rw [keystream, keystream, ← lcgPow_seven_one, ← lcgPow_add, Nat.add_right_comm]

/-- The sum of a geometric series. -/
theorem mul_lcgSum_add_one (n : Nat) : 0x7FF8A3EC * lcgSum n + 1 = 0x7FF8A3ED ^ n := by
  induction n with
  | zero => rfl
  | succ n ih => rw [lcgSum, pow_succ', ← ih]; ring

/-- The multiplier's power, by repeated squaring, at the exponent R88 gives. The modulus `(LCG_A - 1) * 2 ^ 32` leaves
`lcgSum` known modulo `2 ^ 32`. -/
theorem lcgA_pow_zeroExponent : (0x7FF8A3ED : ZMod (0x7FF8A3EC * 2 ^ 32)) ^ 1596896456 = 6481676816609887777 := by
  reduce_mod_char

theorem lcgSum_zeroExponent : lcgSum 1596896456 % 2 ^ 32 = 3018944024 := by
  have hcast : ((0x7FF8A3EC * lcgSum 1596896456 + 1 : Nat) : ZMod (0x7FF8A3EC * 2 ^ 32)) =
      (6481676816609887777 : Nat) := by
    rw [mul_lcgSum_add_one, Nat.cast_pow]
    exact lcgA_pow_zeroExponent
  have hmod := (ZMod.natCast_eq_natCast_iff' _ _ _).mp hcast
  omega

/-- The first difference of the first-block seed, so many times, brings it to 0. -/
theorem lcgPow_seed0_eq_zero_of_lcgSum {n : Nat} (h : lcgSum n % 2 ^ 32 = 3018944024) :
    lcgPow n 0x6569B868 = 0 := by
  have hsum : BitVec.ofNat 32 (lcgSum n) = 3018944024 :=
    BitVec.eq_of_toNat_eq (by rw [BitVec.toNat_ofNat, h]; rfl)
  rw [lcgPow_eq_add_mul, hsum]
  decide

/-- R88: where the orbit of the first-block seed meets 0. -/
theorem lcgPow_seed0_eq_zero_iff (n : Nat) : lcgPow n 0x6569B868 = 0 ↔ n % 2 ^ 32 = 1596896456 := by
  rw [← lcgPow_seed0_eq_zero_of_lcgSum lcgSum_zeroExponent]
  exact lcgPow_eq_lcgPow_iff _ n 1596896456

/-- R88: the exponent is no multiple of 512, so no block of a stream begun with the first-block seed captures 0. -/
theorem lcgPow_lattice_ne_zero (k : Nat) : lcgPow (512 * k) 0x6569B868 ≠ 0 := by
  rw [Ne, lcgPow_seed0_eq_zero_iff]
  omega

/-! ### Injectivity -/

/-- Going round the cycle undoes any number of steps. -/
theorem lcgPow_injective (n : Nat) : Function.Injective (lcgPow n) := by
  have hround : ∀ s, lcgPow ((2 ^ 32 - 1) * n) (lcgPow n s) = s := fun s => by
    rw [← lcgPow_add, lcgPow_eq_self_iff]
    omega
  exact Function.LeftInverse.injective hround

end Sys2Proof.Laws

/-! The state and the step (10_state.md; 60_exceptions.md R182, R193): reset, what each command leaves alone, and what
every step keeps. -/

namespace Sys2Proof.Laws

open Sys2Proof Sys2Proof.Machine Sys2Proof.Safety

/-! ### Reset -/

/-- Settles O1: the reset state's own fields. -/
theorem resetLeavesNothingValid : Obligations.ResetLeavesNothingValid :=
  ⟨reset_magicV, reset_addrV, rfl, fun _ => rfl⟩

theorem step_reset {s : State} {rest : List HostMove} (hp : s.pending = .reset :: rest) :
    step s = .next { s with pending := rest }.resetBlock := by
  simp only [step, State.present, hp]

/-- Settles O2: the step on a reset leaves the block's reset values beside the host's moves and responses. -/
theorem resetMoveInvalidatesBothRegisters : Obligations.ResetMoveInvalidatesBothRegisters :=
  fun _ _ hp => ⟨_, step_reset hp, resetBlock_magicV _, resetBlock_addrV _, fun _ => rfl, resetBlock_pending _,
    resetBlock_responses _, rfl⟩

/-! ### The step -/

theorem step_idle {s : State} (hp : s.pending = []) : step s = .next s := by
  simp only [step, State.present, hp]

/-- Settles O3: the two branches of the step. -/
theorem stepRunsTheDecodedCommand : Obligations.StepRunsTheDecodedCommand :=
  ⟨fun _ _ _ _ hp hd _ => step_command hp hd, fun _ => step_idle⟩

/-- Settles O33: the first check of each block command. -/
theorem blockOperandOfAnotherWidthIsRefused : Obligations.BlockOperandOfAnotherWidthIsRefused := by
  refine ⟨fun f p s hp => ?enc, fun blk s hblk => ?dec⟩
  case enc =>
    rcases execEncBlock_cases f p s with ⟨-, hs⟩ | ⟨hp', -⟩ | ⟨hp', -⟩
    · exact hs
    · exact absurd hp' hp
    · exact absurd hp' hp
  case dec =>
    rcases execDecBlock_cases blk s with ⟨-, hs⟩ | ⟨hblk', -⟩ | ⟨hblk', -⟩
    · exact hs
    · exact absurd hblk' hblk
    · exact absurd hblk' hblk

/-! ### The fields the two block commands leave -/

@[simp] theorem encodedState_magic (f : Bool) (p : List Byte) (s : State) :
    (encodedState f p s).magic = lcgPow 512 (capturedSeed f s) := by simp [encodedState]
@[simp] theorem encodedState_magicV (f : Bool) (p : List Byte) (s : State) :
    (encodedState f p s).magicV = (f || s.magicV) := by simp [encodedState, beginBlock_magicV]
@[simp] theorem encodedState_addr (f : Bool) (p : List Byte) (s : State) :
    (encodedState f p s).addr = s.addr + 1024 := by simp [encodedState]
@[simp] theorem encodedState_addrV (f : Bool) (p : List Byte) (s : State) :
    (encodedState f p s).addrV = s.addrV := by simp [encodedState]
@[simp] theorem encodedState_dmagic (f : Bool) (p : List Byte) (s : State) :
    (encodedState f p s).dmagic = s.dmagic := by simp [encodedState]
@[simp] theorem encodedState_img (f : Bool) (p : List Byte) (s : State) :
    (encodedState f p s).img = Memory.ofBytes (wireBlock s.addr (capturedSeed f s) p) := by simp [encodedState]
@[simp] theorem encodedState_pending (f : Bool) (p : List Byte) (s : State) :
    (encodedState f p s).pending = s.pending := by simp [encodedState]

@[simp] theorem decodedState_magic (blk : List Byte) (s : State) : (decodedState blk s).magic = s.magic := by
  simp [decodedState]
@[simp] theorem decodedState_magicV (blk : List Byte) (s : State) : (decodedState blk s).magicV = s.magicV := by
  simp [decodedState]
@[simp] theorem decodedState_addr (blk : List Byte) (s : State) : (decodedState blk s).addr = s.addr := by
  simp [decodedState]
@[simp] theorem decodedState_addrV (blk : List Byte) (s : State) : (decodedState blk s).addrV = s.addrV := by
  simp [decodedState]
@[simp] theorem decodedState_img (blk : List Byte) (s : State) :
    (decodedState blk s).img = Memory.ofBytes (wordsToBytes (decodedWords blk)) := by simp [decodedState]
@[simp] theorem decodedState_pending (blk : List Byte) (s : State) : (decodedState blk s).pending = s.pending := by
  simp [decodedState]

/-! ### A completed command -/

/-- The state a command leaves: its writes, then its one response. -/
def completed (i : Instr) (s : State) : State :=
  (writtenState i s).respond (responseOf i s).status (responseOf i s).result

theorem exec_eq_completed {i : Instr} (hwf : i.wf = true) (s : State) : exec i s = .next (completed i s) :=
  exec_of_wf hwf s

theorem responds_completed (i : Instr) (s : State) : Responds s (completed i s) (responseOf i s) :=
  responds_responseOf i s

/-- The registers `ENC_BLOCK` reads are valid (R105). -/
theorem encUninitialised_eq_false_iff (f : Bool) (s : State) :
    encUninitialised f s = false ↔ (f = true ∨ s.magicV = true) ∧ s.addrV = true := by
  cases f <;> simp [encUninitialised]

/-- The two ways `ENC_BLOCK` completes: with nothing written, or with the block encoded from valid registers (R105). -/
theorem encBlock_cases (f : Bool) (p : List Byte) (s : State) :
    (encUninitialised f s = true ∧ writtenState (.encBlock f p) s = s ∧
      responseOf (.encBlock f p) s = ⟨.uninitialised, .none⟩) ∨
    ((f = true ∨ s.magicV = true) ∧ s.addrV = true ∧ writtenState (.encBlock f p) s = encodedState f p s ∧
      responseOf (.encBlock f p) s = ⟨.ok, .block (wireBlock s.addr (capturedSeed f s) p)⟩) := by
  cases hu : encUninitialised f s with
  | true => exact .inl ⟨rfl, by simp [writtenState, hu], by simp [responseOf, hu]⟩
  | false =>
    obtain ⟨hmagic, haddr⟩ := (encUninitialised_eq_false_iff f s).mp hu
    exact .inr ⟨hmagic, haddr, by simp [writtenState, hu], by simp [responseOf, hu]⟩

/-- The two ways `KS_NEXT` completes (R84). -/
theorem ksNext_cases (s : State) :
    (s.magicV = false ∧ writtenState .ksNext s = s ∧ responseOf .ksNext s = ⟨.uninitialised, .none⟩) ∨
    (s.magicV = true ∧ writtenState .ksNext s = s.setMagic (lcg s.magic) ∧
      responseOf .ksNext s = ⟨.ok, .word (lcg s.magic)⟩) := by
  cases hv : s.magicV with
  | false => exact .inl ⟨rfl, by simp [writtenState, hv], by simp [responseOf, hv]⟩
  | true => exact .inr ⟨rfl, by simp [writtenState, hv], by simp [responseOf, hv]⟩

/-! ### The write columns of R30 -/

@[simp] theorem writtenState_pending (i : Instr) (s : State) : (writtenState i s).pending = s.pending := by
  cases i with
  | ksNext => rcases ksNext_cases s with ⟨-, hw, -⟩ | ⟨-, hw, -⟩ <;> simp [hw]
  | encBlock f p => rcases encBlock_cases f p s with ⟨-, hw, -⟩ | ⟨-, -, hw, -⟩ <;> simp [hw]
  | decBlock blk => exact decodedState_pending blk s
  | _ => rfl

theorem sameMagic_writtenState {i : Instr} (hinit : ∀ seed, i ≠ .ksInit seed) (hnext : i ≠ .ksNext)
    (henc : ∀ f p, i ≠ .encBlock f p) (s : State) : SameMagic s (writtenState i s) := by
  cases i with
  | ksInit seed => exact absurd rfl (hinit seed)
  | ksNext => exact absurd rfl hnext
  | encBlock f p => exact absurd rfl (henc f p)
  | decBlock blk => exact ⟨decodedState_magic .., decodedState_magicV ..⟩
  | _ => exact ⟨rfl, rfl⟩

theorem sameAddr_writtenState {i : Instr} (hload : ∀ a, i ≠ .addrLoad a) (henc : ∀ f p, i ≠ .encBlock f p)
    (s : State) : SameAddr s (writtenState i s) := by
  cases i with
  | ksInit seed => exact sameAddr_seedMagic s seed
  | ksNext => rcases ksNext_cases s with ⟨-, hw, -⟩ | ⟨-, hw, -⟩ <;> simp [hw, SameAddr]
  | addrLoad a => exact absurd rfl (hload a)
  | encBlock f p => exact absurd rfl (henc f p)
  | decBlock blk => exact ⟨decodedState_addr .., decodedState_addrV ..⟩
  | _ => exact ⟨rfl, rfl⟩

theorem writtenState_dmagic {i : Instr} (hdec : ∀ blk, i ≠ .decBlock blk) (s : State) :
    (writtenState i s).dmagic = s.dmagic := by
  cases i with
  | ksNext => rcases ksNext_cases s with ⟨-, hw, -⟩ | ⟨-, hw, -⟩ <;> simp [hw]
  | encBlock f p => rcases encBlock_cases f p s with ⟨-, hw, -⟩ | ⟨-, -, hw, -⟩ <;> simp [hw]
  | decBlock blk => exact absurd rfl (hdec blk)
  | _ => rfl

theorem writtenState_img {i : Instr} (henc : ∀ f p, i ≠ .encBlock f p) (hdec : ∀ blk, i ≠ .decBlock blk)
    (s : State) : (writtenState i s).img = s.img := by
  cases i with
  | ksNext => rcases ksNext_cases s with ⟨-, hw, -⟩ | ⟨-, hw, -⟩ <;> simp [hw]
  | encBlock f p => exact absurd rfl (henc f p)
  | decBlock blk => exact absurd rfl (hdec blk)
  | _ => rfl

/-- Settles O37: the frame of each command's writes; a response touches no register. -/
theorem onlyTheListedCommandsWriteEachRegister : Obligations.OnlyTheListedCommandsWriteEachRegister := by
  intro i s hwf
  refine ⟨_, exec_eq_completed hwf s, ?pending, fun hinit hnext henc => ?magic, fun hload henc => ?addr,
    fun hdec => ?dmagic, fun henc hdec a => ?img⟩
  case pending => exact writtenState_pending i s
  case magic => exact sameMagic_respond (sameMagic_writtenState hinit hnext henc s) ..
  case addr => exact sameAddr_respond (sameAddr_writtenState hload henc s) ..
  case dmagic => exact writtenState_dmagic hdec s
  case img => exact congrArg (fun m : Memory => m.read a) (writtenState_img henc hdec s)

/-! ### Repetition -/

/-- R49: such a command's writes of the registers do not depend on what they hold. -/
theorem sameArch_writtenState_completed {i : Instr} (hnext : i ≠ .ksNext) (henc : ∀ f p, i ≠ .encBlock f p)
    (s : State) : SameArch (completed i s) (writtenState i (completed i s)) := by
  cases i with
  | ksNext => exact absurd rfl hnext
  | encBlock f p => exact absurd rfl (henc f p)
  | decBlock blk => exact sameArch_decodedState blk _
  | _ => exact ⟨rfl, rfl, rfl, rfl⟩

/-- Settles O38: the same response in both states, and the same register writes a second time. -/
theorem repeatingAnIdempotentCommandChangesNothing : Obligations.RepeatingAnIdempotentCommandChangesNothing := by
  intro i s hwf hnext henc
  refine ⟨_, _, responseOf i s, exec_eq_completed hwf s, exec_eq_completed hwf _, responds_completed i s, ?again,
    ?arch⟩
  case again => exact responseOf_congr hnext henc s (completed i s) ▸ responds_completed i (completed i s)
  case arch => exact sameArch_writtenState_completed hnext henc s

/-! ### The valid bits -/

/-- R22: the commands that write `MAGIC_V` set it. -/
theorem writtenState_magicV_of_valid {s : State} (h : s.magicV = true) (i : Instr) :
    (writtenState i s).magicV = true := by
  cases i with
  | ksNext => rcases ksNext_cases s with ⟨-, hw, -⟩ | ⟨-, hw, -⟩ <;> simp [hw, h]
  | encBlock f p => rcases encBlock_cases f p s with ⟨-, hw, -⟩ | ⟨-, -, hw, -⟩ <;> simp [hw, h]
  | decBlock blk => exact (decodedState_magicV blk s).trans h
  | ksInit seed => rfl
  | _ => exact h

/-- R24: the commands that write `ADDR_V` set it. -/
theorem writtenState_addrV_of_valid {s : State} (h : s.addrV = true) (i : Instr) :
    (writtenState i s).addrV = true := by
  cases i with
  | ksNext => rcases ksNext_cases s with ⟨-, hw, -⟩ | ⟨-, hw, -⟩ <;> simp [hw, h]
  | encBlock f p => rcases encBlock_cases f p s with ⟨-, hw, -⟩ | ⟨-, -, hw, -⟩ <;> simp [hw, h]
  | decBlock blk => exact (decodedState_addrV blk s).trans h
  | addrLoad a => rfl
  | _ => exact h

/-- All the ways a step answers a next state. -/
theorem step_next_cases {s t : State} (hstep : step s = .next t) :
    (s.pending = [] ∧ t = s) ∨
    (∃ rest, s.pending = .reset :: rest ∧ t = { s with pending := rest }.resetBlock) ∨
    (∃ c rest, s.pending = .issue c :: rest ∧ decode c = .illegalWord ∧
      t = { s with pending := rest }.respond .illegalCommand .none) ∨
    ∃ c rest i, s.pending = .issue c :: rest ∧ decode c = .command i ∧ i.wf = true ∧
      t = completed i { s with pending := rest } := by
  match hp : s.pending with
  | [] =>
    rw [step_idle hp] at hstep
    cases hstep
    exact .inl ⟨rfl, rfl⟩
  | .reset :: rest =>
    rw [step_reset hp] at hstep
    cases hstep
    exact .inr (.inl ⟨rest, rfl, rfl⟩)
  | .issue c :: rest =>
    rcases step_issue_cases hp hstep with ⟨hd, ht⟩ | ⟨i, hd, hwf, ht⟩
    · exact .inr (.inr (.inl ⟨c, rest, rfl, hd, ht⟩))
    · exact .inr (.inr (.inr ⟨c, rest, i, rfl, hd, hwf, ht⟩))

/-- Settles O39: idling and an illegal word leave the valid bits, and no command's writes clear one. -/
theorem noCommandClearsAValidBit : Obligations.NoCommandClearsAValidBit := by
  intro s t hstep hnoReset
  rcases step_next_cases hstep with ⟨-, rfl⟩ | ⟨rest, hp, -⟩ | ⟨c, rest, -, -, rfl⟩ | ⟨c, rest, i, -, -, -, rfl⟩
  · exact ⟨id, id⟩
  · exact absurd hp (hnoReset rest)
  · exact ⟨id, id⟩
  · exact ⟨fun h => writtenState_magicV_of_valid (s := { s with pending := rest }) h i,
      fun h => writtenState_addrV_of_valid (s := { s with pending := rest }) h i⟩

/-! ### The buffer -/

/-- Settles O32: the bytes the buffer is filled with, read one by one. -/
theorem blockCommandsLeaveTheirImageInTheBuffer : Obligations.BlockCommandsLeaveTheirImageInTheBuffer := by
  refine ⟨fun f p s hp hmagic haddr => ?enc, fun blk s hblk => ?dec⟩
  case enc =>
    refine ⟨_, _, exec_encBlock_of_initialised hp ((encUninitialised_eq_false_iff f s).mpr ⟨hmagic, haddr⟩),
      responds_of _ _ (encodedState_responses ..), fun a => ?_⟩
    rw [respond_img, encodedState_img, ofBytes_read]
  case dec =>
    have himg : (completed (.decBlock blk) s).img = Memory.ofBytes (wordsToBytes (decodedWords blk)) :=
      decodedState_img blk s
    refine ⟨_, exec_eq_completed (by simp [Instr.wf, hblk]) s, fun a ha => ?inside, fun a ha => ?outside⟩
    case inside => rw [himg, ofBytes_read, decodedImage_getElem? hblk ha]
    case outside =>
      rw [himg, ofBytes_read, List.getElem?_eq_none]
      rwa [wordsToBytes_length, decodedWords_length hblk]

theorem bufferInv_of_img_nil {s : State} (h : s.img = []) : BufferInv s :=
  ⟨h ▸ ⟨List.Pairwise.nil, by simp⟩, .inl h⟩

/-- R26: a block command fills the buffer completely. -/
theorem bufferInv_of_img_ofBytes {s : State} {bs : List Byte} (hlen : bs.length = 2048)
    (h : s.img = Memory.ofBytes bs) : BufferInv s := by
  refine ⟨h ▸ ofBytes_wf (Nat.le_of_eq hlen), .inr fun a ha => ?_⟩
  rw [h, ofBytes_read, List.getElem?_eq_getElem (hlen ▸ ha)]
  rfl

theorem bufferInv_of_img_eq {s t : State} (h : t.img = s.img) (hs : BufferInv s) : BufferInv t := by
  rw [BufferInv, h]
  exact hs

theorem bufferInv_writtenState {i : Instr} {s : State} (hwf : i.wf = true) (hs : BufferInv s) :
    BufferInv (writtenState i s) := by
  cases i with
  | ksNext => exact bufferInv_of_img_eq (writtenState_img (by simp) (by simp) s) hs
  | encBlock f p =>
    have hp : p.length = 1024 := by simpa [Instr.wf] using hwf
    rcases encBlock_cases f p s with ⟨-, hw, -⟩ | ⟨-, -, hw, -⟩
    · rwa [hw]
    · exact bufferInv_of_img_ofBytes (wireBlock_length _ _ hp) (by rw [hw, encodedState_img])
  | decBlock blk =>
    have hblk : blk.length = 2048 := by simpa [Instr.wf] using hwf
    exact bufferInv_of_img_ofBytes (by rw [wordsToBytes_length, decodedWords_length hblk]) (decodedState_img blk s)
  | _ => exact bufferInv_of_img_eq rfl hs

/-- Settles O49: a reset empties the buffer, the block commands fill it, and no other step touches it. -/
theorem everyStepKeepsTheBufferInvariant : Obligations.EveryStepKeepsTheBufferInvariant := by
  intro s t hs hstep
  rcases step_next_cases hstep with ⟨-, rfl⟩ | ⟨rest, -, rfl⟩ | ⟨c, rest, -, -, rfl⟩ | ⟨c, rest, i, -, -, hwf, rfl⟩
  · exact hs
  · exact bufferInv_of_img_nil (resetBlock_img _)
  · exact bufferInv_of_img_eq (s := s) rfl hs
  · exact bufferInv_writtenState (s := { s with pending := rest }) hwf hs

/-- Settles O50: the reset state's buffer is empty. -/
theorem resetMeetsTheBufferInvariant : Obligations.ResetMeetsTheBufferInvariant :=
  bufferInv_of_img_nil reset_img

/-! ### What a run shows -/

/-- Two states show the same and will take the same moves: what that says of each field. -/
theorem sameView_iff (s t : State) : SameView s t ↔
    t.responses = s.responses ∧ t.magicV = s.magicV ∧ t.addrV = s.addrV ∧ t.pending = s.pending ∧
      (s.magicV = true → t.magic = s.magic) ∧ (s.addrV = true → t.addr = s.addr) := by
  have hvalue : ∀ (v : Bool) (x y : Word), validValue v y = validValue v x ↔ (v = true → y = x) := by
    intro v x y
    cases v <;> simp [validValue]
  constructor
  · rintro ⟨hobs, hmv, hav, hp⟩
    obtain ⟨hr, hm, ha⟩ := Observation.mk.inj hobs
    rw [hmv, hvalue] at hm
    rw [hav, hvalue] at ha
    exact ⟨hr, hmv, hav, hp, hm, ha⟩
  · rintro ⟨hr, hmv, hav, hp, hm, ha⟩
    refine ⟨?_, hmv, hav, hp⟩
    simp only [observe, hr, hmv, hav, (hvalue _ _ _).mpr hm, (hvalue _ _ _).mpr ha]

theorem sameView_respond {s s' : State} (h : SameView s s') (st : Status) (res : ResultRecord) :
    SameView (s.respond st res) (s'.respond st res) := by
  obtain ⟨hr, hrest⟩ := (sameView_iff s s').mp h
  exact (sameView_iff _ _).mpr ⟨congrArg (· ++ [_]) hr, hrest⟩

theorem sameView_withPending {s s' : State} (h : SameView s s') (rest : List HostMove) :
    SameView { s with pending := rest } { s' with pending := rest } := by
  obtain ⟨hr, hmv, hav, -, hm, ha⟩ := (sameView_iff s s').mp h
  exact (sameView_iff _ _).mpr ⟨hr, hmv, hav, rfl, hm, ha⟩

theorem sameView_resetBlock {s s' : State} (h : SameView s s') : SameView s.resetBlock s'.resetBlock := by
  obtain ⟨hr, -, -, hp, -, -⟩ := (sameView_iff s s').mp h
  exact (sameView_iff _ _).mpr ⟨hr, rfl, rfl, hp, fun _ => rfl, fun _ => rfl⟩

theorem sameView_setMagic {s s' : State} (h : SameView s s') (v : Word) :
    SameView (s.setMagic v) (s'.setMagic v) := by
  obtain ⟨hr, hmv, hav, hp, -, ha⟩ := (sameView_iff s s').mp h
  exact (sameView_iff _ _).mpr ⟨hr, hmv, hav, hp, fun _ => rfl, ha⟩

theorem sameView_decodedState {s s' : State} (h : SameView s s') (blk : List Byte) :
    SameView (decodedState blk s) (decodedState blk s') := by
  have hview := (sameView_iff s s').mp h
  rw [sameView_iff, decodedState_responses, decodedState_responses]
  simpa using hview

/-- The encoded block is the same, since both registers it is encoded from are valid. -/
theorem sameView_encodedState {f : Bool} {s s' : State} (h : SameView s s')
    (hseed : capturedSeed f s' = capturedSeed f s) (haddr : s'.addr = s.addr) (p : List Byte) :
    SameView (encodedState f p s) (encodedState f p s') := by
  obtain ⟨hr, hmv, hav, hp, -, -⟩ := (sameView_iff s s').mp h
  have hresponses : (encodedState f p s').responses = (encodedState f p s).responses := by
    rw [encodedState, encodedState, encodedState_responses, encodedState_responses, hr]
  exact (sameView_iff _ _).mpr
    ⟨hresponses, by simp [hmv], by simp [hav], by simp [hp], by simp [hseed], by simp [haddr]⟩

/-- R194: a command answers and writes the same in two states that show the same, since a register is read only where it
is valid, and `DMAGIC` and the buffer not before they are written. -/
theorem sameView_command {s s' : State} (h : SameView s s') (i : Instr) :
    responseOf i s' = responseOf i s ∧ SameView (writtenState i s) (writtenState i s') := by
  obtain ⟨hr, hmv, hav, hp, hm, ha⟩ := (sameView_iff s s').mp h
  cases i with
  | ksInit seed => exact ⟨rfl, (sameView_iff _ _).mpr ⟨hr, rfl, hav, hp, fun _ => rfl, ha⟩⟩
  | addrLoad a => exact ⟨rfl, (sameView_iff _ _).mpr ⟨hr, hmv, rfl, hp, hm, fun _ => rfl⟩⟩
  | ksNext =>
    rcases ksNext_cases s with ⟨hv, hw, hres⟩ | ⟨hv, hw, hres⟩
    · have hv' : s'.magicV = false := hmv.trans hv
      simpa [responseOf, writtenState, hv, hv'] using h
    · have hv' : s'.magicV = true := hmv.trans hv
      rw [hw, hres, writtenState, responseOf, if_pos hv', if_pos hv', hm hv]
      exact ⟨rfl, sameView_setMagic h _⟩
  | encBlock f p =>
    have hread : encUninitialised f s' = encUninitialised f s := by simp only [encUninitialised, hmv, hav]
    cases hu : encUninitialised f s with
    | true => simpa [responseOf, writtenState, hread, hu] using h
    | false =>
      obtain ⟨hmagic, haddr⟩ := (encUninitialised_eq_false_iff f s).mp hu
      have hseed : capturedSeed f s' = capturedSeed f s := by
        rcases hmagic with rfl | hv
        · rfl
        · rw [capturedSeed, capturedSeed, hm hv]
      refine ⟨by simp [responseOf, hread, hu, hseed, ha haddr], ?_⟩
      simpa [writtenState, hread, hu] using sameView_encodedState h hseed (ha haddr) p
  | decBlock blk => exact ⟨rfl, sameView_decodedState h blk⟩
  | _ => exact ⟨rfl, h⟩

theorem sameView_completed {s s' : State} (h : SameView s s') (i : Instr) :
    SameView (completed i s) (completed i s') := by
  obtain ⟨hresponse, hwritten⟩ := sameView_command h i
  rw [completed, completed, hresponse]
  exact sameView_respond hwritten ..

theorem sameView_step {s s' t : State} (h : SameView s s') (hstep : step s = .next t) :
    ∃ t', step s' = .next t' ∧ SameView t t' := by
  have ⟨_, _, _, hpending⟩ := h
  rcases step_next_cases hstep with
    ⟨hp, rfl⟩ | ⟨rest, hp, rfl⟩ | ⟨c, rest, hp, hd, rfl⟩ | ⟨c, rest, i, hp, hd, hwf, rfl⟩
  · exact ⟨s', step_idle (hpending.trans hp), h⟩
  · exact ⟨_, step_reset (hpending.trans hp), sameView_resetBlock (sameView_withPending h rest)⟩
  · exact ⟨_, step_illegalWord (hpending.trans hp) hd, sameView_respond (sameView_withPending h rest) ..⟩
  · exact ⟨_, (step_command (hpending.trans hp) hd).trans (exec_eq_completed hwf _),
      sameView_completed (sameView_withPending h rest) i⟩

/-! ### Runs -/

theorem core_step (s : State) : Sys2Proof.core.step s = step s := rfl

theorem run_succ_eq_next_iff (n : Nat) (s t : State) :
    Host.Core.run Sys2Proof.core (n + 1) s = .next t ↔
      ∃ u, step s = .next u ∧ Host.Core.run Sys2Proof.core n u = .next t := by
  cases hs : step s with
  | next u => simp [Host.Core.run, core_step, hs]
  | fault r => simp [Host.Core.run, core_step, hs]
  | refused r => simp [Host.Core.run, core_step, hs]

/-- A step first, then the rest of the run. -/
theorem run_succ_of_step {s u : State} (hstep : step s = .next u) (n : Nat) :
    Host.Core.run Sys2Proof.core (n + 1) s = Host.Core.run Sys2Proof.core n u := by
  simp only [Host.Core.run, core_step, hstep]

/-- Settles O48: by induction on the number of steps, each of which keeps what the two states show. -/
theorem unobservedStateNeverShows : Obligations.UnobservedStateNeverShows := by
  intro n
  induction n with
  | zero =>
    intro s s' t h hrun
    cases hrun
    exact ⟨s', rfl, h⟩
  | succ n ih =>
    intro s s' t h hrun
    obtain ⟨u, hstep, hrun⟩ := (run_succ_eq_next_iff n s t).mp hrun
    obtain ⟨u', hstep', h'⟩ := sameView_step h hstep
    obtain ⟨t', hrun', ht⟩ := ih u u' t h' hrun
    exact ⟨t', (run_succ_eq_next_iff n s' t').mpr ⟨u', hstep', hrun'⟩, ht⟩

end Sys2Proof.Laws

/-! Whole blocks (41_block_encoder.md section 3; 42_block_decoder.md section 3): the wire block in closed form, the
first block of a stream, the lattice of a stream's seeds, and what decoding gives back. -/

namespace Sys2Proof.Laws

open Sys2Proof Sys2Proof.Machine Sys2Proof.Safety

/-! ### The wire block in closed form -/

/-- The bytes of a word before the payload or after it are zeros (R103). -/
theorem leWord_plainByteSpec_padding (p : List Byte) {i : Nat} (hi : 4 * i + 3 < 318 ∨ 1341 < 4 * i) :
    leWord (plainByteSpec p) i = 0 := by
  have hzero : ∀ a, 4 * i ≤ a → a ≤ 4 * i + 3 → plainByteSpec p a = 0 := fun a _ _ => if_neg (by omega)
  rw [leWord, hzero _ (by omega) (by omega), hzero _ (by omega) (by omega), hzero _ (by omega) (by omega),
    hzero _ (by omega) (by omega)]
  rfl

/-- The padding words of the image: neither a header word nor payload (R107, R108). -/
theorem plainWordSpec_padding (addr seed : Word) (p : List Byte) {i : Nat} (hheader : i ∉ [0, 1, 3, 6])
    (hi : i ≤ 78 ∨ 336 ≤ i) : plainWordSpec addr seed p i = 0 := by
  simp only [List.mem_cons, List.not_mem_nil, or_false, not_or] at hheader
  obtain ⟨h0, h1, h3, h6⟩ := hheader
  rw [plainWordSpec, if_neg h0, if_neg h1, if_neg h3, if_neg h6, leWord_plainByteSpec_padding p (by omega)]

/-- On a zero word the transform gives the bare keystream, rotated in the rotated class (R108). -/
theorem scrSpec_zero {i : Nat} (hi : i ≠ 6) (r : Word) :
    scrSpec i 0 r = if i % 16 = 2 then r.rotateLeft 25 else r := by
  have hxor : 0 ^^^ r = r := BitVec.zero_xor
  rw [scrSpec, if_neg hi, hxor]

theorem leWord_wireBlock_padding (addr seed : Word) {p : List Byte} (hp : p.length = 1024) {i : Nat}
    (hheader : i ∉ [0, 1, 3, 6]) (hi : i ≤ 78 ∨ 336 ≤ i ∧ i ≤ 511) :
    leWord (byteAt (wireBlock addr seed p)) i =
      if i % 16 = 2 then (lcgPow (i + 1) seed).rotateLeft 25 else lcgPow (i + 1) seed := by
  have h6 : i ≠ 6 := fun h => hheader (by simp [h])
  rw [leWord_wireBlock addr seed hp (by omega), plainWordSpec_padding addr seed p hheader (by omega), scrSpec_zero h6]

/-- The seed word is on the wire as it was captured (R106). -/
theorem leWord_wireBlock_seed (addr seed : Word) {p : List Byte} (hp : p.length = 1024) :
    leWord (byteAt (wireBlock addr seed p)) 6 = seed :=
  leWord_wireBlock addr seed hp (by decide)

/-- Settles O30: the header words are the transforms of the inserted values, and the padding words those of 0. -/
theorem wireBlockClosedForm : Obligations.WireBlockClosedForm := by
  intro f p s hp hmagic haddr
  have hword := fun {i : Nat} => leWord_wireBlock s.addr (capturedSeed f s) hp (i := i)
  have hpad := fun {i : Nat} => leWord_wireBlock_padding s.addr (capturedSeed f s) hp (i := i)
  refine ⟨_, _, exec_encBlock_of_initialised hp ((encUninitialised_eq_false_iff f s).mpr ⟨hmagic, haddr⟩),
    responds_of _ _ (encodedState_responses ..), hword (by decide), hword (by decide), hpad (by decide) (by decide),
    hword (by decide), hpad (by decide) (by decide), hpad (by decide) (by decide), leWord_wireBlock_seed _ _ hp,
    fun i hi => hpad ?notHeader (by omega), ?last⟩
  case notHeader =>
    simp only [List.mem_cons, List.not_mem_nil, or_false, not_or]
    omega
  case last =>
    rw [hpad (by decide) (by decide), respond_magic, encodedState_magic]
    rfl

/-! ### The first block of a stream -/

/-- The state after `KS_INIT` of the first-block seed. -/
def seeded (s : State) : State := completed (.ksInit 0x6569B868) s

@[simp] theorem seeded_magic (s : State) : (seeded s).magic = 0x6569B868 := 
  norm_of_ne_zero (s := 0x6569B868) (by decide)
@[simp] theorem seeded_magicV (s : State) : (seeded s).magicV = true := rfl
@[simp] theorem seeded_addr (s : State) : (seeded s).addr = s.addr := rfl
@[simp] theorem seeded_addrV (s : State) : (seeded s).addrV = s.addrV := rfl
@[simp] theorem seeded_dmagic (s : State) : (seeded s).dmagic = s.dmagic := rfl

/-- `ENC_BLOCK.FIRST` captures the seed that seeding first puts into `MAGIC` (R110). -/
theorem capturedSeed_seeded (s : State) : capturedSeed false (seeded s) = capturedSeed true s := seeded_magic s

theorem encUninitialised_seeded (s : State) : encUninitialised false (seeded s) = encUninitialised true s := by
  simp [encUninitialised]

theorem responseOf_encBlock_seeded (p : List Byte) (s : State) :
    responseOf (.encBlock false p) (seeded s) = responseOf (.encBlock true p) s := by
  simp only [responseOf, encUninitialised_seeded, capturedSeed_seeded, seeded_addr]

theorem sameArch_encodedState_seeded (p : List Byte) (s : State) :
    SameArch (encodedState true p s) (encodedState false p (seeded s)) := by
  simp [SameArch, capturedSeed_seeded]

/-- Settles O41: with the same seed captured and the same address the two encode the same block; without an address the
one writes nothing and the other has seeded. -/
theorem firstBlockIsSeedingThenEncoding : Obligations.FirstBlockIsSeedingThenEncoding := by
  intro p s hp
  have hwf : ∀ f, (Instr.encBlock f p).wf = true := fun _ => beq_iff_eq.mpr hp
  refine ⟨completed (.encBlock true p) s, seeded s, completed (.encBlock false p) (seeded s), _,
    exec_eq_completed (hwf true) s, rfl, exec_eq_completed (hwf false) _, responds_completed _ s,
    responseOf_encBlock_seeded p s ▸ responds_completed _ (seeded s), fun haddr => ?valid, fun haddr => ?invalid⟩
  case valid =>
    have hu : encUninitialised true s = false := (encUninitialised_eq_false_iff _ s).mpr ⟨.inl rfl, haddr⟩
    have hfirst : writtenState (.encBlock true p) s = encodedState true p s := by simp [writtenState, hu]
    have hsecond : writtenState (.encBlock false p) (seeded s) = encodedState false p (seeded s) := by
      simp [writtenState, encUninitialised_seeded, hu]
    simp only [completed, hfirst, hsecond]
    refine ⟨sameArch_encodedState_seeded p s, ?dmagic, ?img⟩
    case dmagic => simp
    case img => simp [capturedSeed_seeded]
  case invalid =>
    have hu : encUninitialised true s = true := (encUninitialised_iff _ s).mpr (.inr haddr)
    have hfirst : writtenState (.encBlock true p) s = s := by simp [writtenState, hu]
    have hsecond : writtenState (.encBlock false p) (seeded s) = seeded s := by
      simp [writtenState, encUninitialised_seeded, hu]
    simp only [completed, hfirst, hsecond]
    refine ⟨sameArch_respond .., sameScratch_respond (sameScratch_refl s) .., ?response, ?magic, ?magicV⟩
    case response => simp [responseOf, hu]
    case magic => simp
    case magicV => simp

/-! ### The lattice of a stream's seeds -/

theorem onStreamLattice_of_sameMagic {s t : State} (h : SameMagic s t) (hs : OnStreamLattice s) :
    OnStreamLattice t := by
  obtain ⟨hmagic, hmagicV⟩ := h
  rw [OnStreamLattice, hmagic, hmagicV]
  exact hs

theorem onStreamLattice_respond {s : State} (hs : OnStreamLattice s) (st : Status) (res : ResultRecord) :
    OnStreamLattice (s.respond st res) := onStreamLattice_of_sameMagic (s := s) ⟨rfl, rfl⟩ hs

theorem capturedSeed_first (s : State) : ∃ k, capturedSeed true s = lcgPow (512 * k) 0x6569B868 := ⟨0, rfl⟩

/-- The seed a block captures from a state on the lattice is on it (R88). -/
theorem capturedSeed_of_onStreamLattice {f : Bool} {s : State} (hs : OnStreamLattice s)
    (hmagic : f = true ∨ s.magicV = true) : ∃ k, capturedSeed f s = lcgPow (512 * k) 0x6569B868 := by
  cases f with
  | true => exact capturedSeed_first s
  | false => exact hs (hmagic.resolve_left Bool.false_ne_true)

/-- A block steps the generator 512 times from a seed on the lattice. -/
theorem onStreamLattice_encodedState {f : Bool} {s : State} (p : List Byte)
    (hseed : ∃ k, capturedSeed f s = lcgPow (512 * k) 0x6569B868) : OnStreamLattice (encodedState f p s) := by
  obtain ⟨k, hk⟩ := hseed
  refine fun _ => ⟨k + 1, ?_⟩
  rw [encodedState_magic, hk, ← lcgPow_add, Nat.mul_succ, Nat.add_comm]

theorem onStreamLattice_writtenState {i : Instr} {s : State} (hinit : ∀ seed, i ≠ .ksInit seed) (hnext : i ≠ .ksNext)
    (hs : OnStreamLattice s) : OnStreamLattice (writtenState i s) := by
  by_cases henc : ∃ f p, i = .encBlock f p
  · obtain ⟨f, p, rfl⟩ := henc
    rcases encBlock_cases f p s with ⟨-, hw, -⟩ | ⟨hmagic, -, hw, -⟩
    · rwa [hw]
    · rw [hw]
      exact onStreamLattice_encodedState p (capturedSeed_of_onStreamLattice hs hmagic)
  · push Not at henc
    exact onStreamLattice_of_sameMagic (sameMagic_writtenState hinit hnext henc s) hs

/-- Settles O14: where the orbit of the first-block seed meets 0, that `ENC_BLOCK.FIRST` enters the lattice and the
other moves keep it, and that 0 is not on it. -/
theorem standardStreamNeverCapturesZero : Obligations.StandardStreamNeverCapturesZero := by
  refine ⟨lcgPow_seed0_eq_zero_iff, fun s c rest p hp hd haddr => ?enter, fun s t hmove hs hstep => ?keep,
    fun f s hs hmagic => ?nonzero⟩
  case enter =>
    obtain ⟨-, hwf⟩ := encodeInvertsDecode c _ hd
    have hlen : p.length = 1024 := by simpa [Instr.wf] using hwf
    have hu : encUninitialised true { s with pending := rest } = false :=
      (encUninitialised_eq_false_iff _ _).mpr ⟨.inl rfl, haddr⟩
    refine ⟨_, _, (step_command hp hd).trans (exec_encBlock_of_initialised hlen hu),
      responds_of _ _ (encodedState_responses ..), ?valid, ?lattice⟩
    case valid => rw [respond_magicV, encodedState_magicV, Bool.true_or]
    case lattice => exact onStreamLattice_respond (onStreamLattice_encodedState p (capturedSeed_first _)) _ _
  case keep =>
    rcases step_next_cases hstep with ⟨-, rfl⟩ | ⟨rest, -, rfl⟩ | ⟨c, rest, -, -, rfl⟩ | ⟨c, rest, i, hp, hd, -, rfl⟩
    · exact hs
    · exact fun h => absurd h Bool.false_ne_true
    · exact hs
    · obtain ⟨hnext, hinit⟩ := hmove c rest hp
      rw [hd] at hnext
      simp only [hd] at hinit
      exact onStreamLattice_writtenState (s := { s with pending := rest })
        (fun seed h => hinit seed (congrArg Decoded.command h)) (fun h => hnext (congrArg Decoded.command h)) hs
  case nonzero =>
    obtain ⟨k, hk⟩ := capturedSeed_of_onStreamLattice hs hmagic
    rw [hk]
    exact lcgPow_lattice_ne_zero k

/-! ### Decoding a wire block -/

theorem dscrSpec_scrSpec (i : Nat) (w r : Word) : dscrSpec i (scrSpec i w r) r = w := by
  rw [← dscr_eq_dscrSpec, ← scr_eq_scrSpec, dscr_scr]

theorem decodeSeedSpec_wireBlock (addr : Word) {seed : Word} (hseed : seed ≠ 0) {p : List Byte} (hp : p.length = 1024) :
    decodeSeedSpec (wireBlock addr seed p) = seed := by
  rw [decodeSeedSpec, leWord_wireBlock_seed addr seed hp, if_neg hseed]

/-- R139: with the captured seed the decoder's keystream is the encoder's, so the plain words come back, and the address
with its mask added again. -/
theorem decodedWordSpec_wireBlock (addr : Word) {seed : Word} (hseed : seed ≠ 0) {p : List Byte} (hp : p.length = 1024)
    {i : Nat} (hi : i < 512) : decodedWordSpec (wireBlock addr seed p) i =
      if i = 1 then addr else plainWordSpec addr seed p i := by
  rw [decodedWordSpec, decodeSeedSpec_wireBlock addr hseed hp, leWord_wireBlock addr seed hp hi, dscrSpec_scrSpec,
    leWord_wireBlock_seed addr seed hp]
  split_ifs with h1
  · subst h1
    exact sub_add_cancel addr (maskSpec seed)
  · rfl

/-- A byte of a little-endian word (20_memory.md R41, R43). -/
theorem leByte_of_leWord {b : Nat → Byte} {w : Nat → Word} {a : Nat} (h : w (a / 4) = leWord b (a / 4)) :
    leByte w a = b a := by
  obtain ⟨q, r, hr, rfl⟩ : ∃ q r, r < 4 ∧ a = 4 * q + r := ⟨a / 4, a % 4, by omega, by omega⟩
  have h0 := (b (4 * q)).isLt
  have h1 := (b (4 * q + 1)).isLt
  have h2 := (b (4 * q + 2)).isLt
  have h3 := (b (4 * q + 3)).isLt
  apply BitVec.eq_of_toNat_eq
  rw [leByte, h, show (4 * q + r) / 4 = q by omega, show (4 * q + r) % 4 = r by omega, leWord, BitVec.toNat_ofNat,
    BitVec.toNat_ofNat]
  interval_cases r
  · simp only [Nat.add_zero]
    omega
  all_goals omega

/-- The payload words are no header words (R103, R104). -/
theorem plainWordSpec_payload (addr seed : Word) (p : List Byte) {i : Nat} (hi : 6 < i) :
    plainWordSpec addr seed p i = leWord (plainByteSpec p) i := by
  rw [plainWordSpec, if_neg (by omega), if_neg (by omega), if_neg (by omega), if_neg (by omega)]

theorem blockSize_wireBlock (addr : Word) {seed : Word} (hseed : seed ≠ 0) {p : List Byte} (hp : p.length = 1024) :
    decodedWordSpec (wireBlock addr seed p) 0 = 1024 := decodedWordSpec_wireBlock addr hseed hp (by decide)

theorem startAddress_wireBlock (addr : Word) {seed : Word} (hseed : seed ≠ 0) {p : List Byte} (hp : p.length = 1024) :
    decodedWordSpec (wireBlock addr seed p) 1 = addr := decodedWordSpec_wireBlock addr hseed hp (by decide)

theorem startByteSpec_wireBlock (addr : Word) {seed : Word} (hseed : seed ≠ 0) {p : List Byte}
    (hp : p.length = 1024) : startByteSpec (wireBlock addr seed p) = 318 := by
  rw [startByteSpec, decodedWordSpec_wireBlock addr hseed hp (by decide)]
  rfl

/-- The payload of a decoded wire block is the chunk (R139). -/
theorem payloadSpec_wireBlock (addr : Word) {seed : Word} (hseed : seed ≠ 0) {p : List Byte} (hp : p.length = 1024) :
    payloadSpec (wireBlock addr seed p) = p := by
  have hsize : (decodedWordSpec (wireBlock addr seed p) 0).toNat = 1024 :=
    congrArg BitVec.toNat (blockSize_wireBlock addr hseed hp)
  apply List.ext_getElem?
  intro k
  by_cases hk : k < 1024
  · have hword : decodedWordSpec (wireBlock addr seed p) ((318 + k) / 4) =
        leWord (plainByteSpec p) ((318 + k) / 4) := by
      rw [decodedWordSpec_wireBlock addr hseed hp (by omega), if_neg (by omega), plainWordSpec_payload _ _ _ (by omega)]
    rw [payloadSpec_getElem? (by omega), startByteSpec_wireBlock addr hseed hp, leByte_of_leWord hword, plainByteSpec,
      if_pos (by omega), Nat.add_sub_cancel_left, getElem?_eq_some_byteAt (by omega)]
  · rw [List.getElem?_eq_none (by rw [payloadSpec_length]; omega), List.getElem?_eq_none (by omega)]

/-- R139: what a wire block with a non-zero seed decodes to. -/
theorem decodedResponse_wireBlock (addr : Word) {seed : Word} (hseed : seed ≠ 0) {p : List Byte}
    (hp : p.length = 1024) : decodedResponse (wireBlock addr seed p) = ⟨.ok, .decoded addr 1024 318 p⟩ := by
  rw [decodedResponse, startByteSpec_wireBlock addr hseed hp, payloadSpec_wireBlock addr hseed hp,
    startAddress_wireBlock addr hseed hp, blockSize_wireBlock addr hseed hp]
  rfl

theorem sliceFits_wireBlock (addr : Word) {seed : Word} (hseed : seed ≠ 0) {p : List Byte}
    (hp : p.length = 1024) : SliceFits (wireBlock addr seed p) := by
  rw [SliceFits, startByteSpec_wireBlock addr hseed hp, blockSize_wireBlock addr hseed hp]
  decide

/-- Settles O42: the wire block's slice fits, and its response is the one of the chunk and the address. -/
theorem blockRoundTrip : Obligations.BlockRoundTrip := by
  intro f p s hp haddr hmagic hseed
  have hu : encUninitialised f s = false := (encUninitialised_eq_false_iff f s).mpr ⟨hmagic, haddr⟩
  refine ⟨_, _, exec_encBlock_of_initialised hp hu, responds_of _ _ (encodedState_responses ..), fun u => ⟨_,
    exec_decBlock_of_sliceFits (wireBlock_length _ _ hp) (sliceFits_wireBlock s.addr hseed hp) u, ?response,
    sameArch_decodedState_respond ..⟩⟩
  case response =>
    rw [decodedResponse_wireBlock s.addr hseed hp]
    exact responds_of _ _ (decodedState_responses ..)

/-! ### A block with seed 0 -/

/-- R140: the decoder's generator starts at 1 and not at the seed 0, so the size comes out with both first keystream
values, which do not cancel. -/
theorem decodedWordSpec_zero_of_zeroSeed (addr : Word) {p : List Byte} (hp : p.length = 1024) :
    decodedWordSpec (wireBlock addr 0 p) 0 = 0x8038D82F := by
  have hseed : decodeSeedSpec (wireBlock addr 0 p) = 1 := by
    rw [decodeSeedSpec, leWord_wireBlock_seed addr 0 hp, if_pos rfl]
  have hwire : leWord (byteAt (wireBlock addr 0 p)) 0 = scrSpec 0 1024 (lcgPow 1 0) :=
    leWord_wireBlock addr 0 hp (by decide)
  simp only [decodedWordSpec, hseed, hwire, if_neg Nat.zero_ne_one]
  decide

theorem not_sliceFits_of_zeroSeed (addr : Word) {p : List Byte} (hp : p.length = 1024) :
    ¬ SliceFits (wireBlock addr 0 p) := by
  have hsize : (decodedWordSpec (wireBlock addr 0 p) 0).toNat = 0x8038D82F :=
    congrArg BitVec.toNat (decodedWordSpec_zero_of_zeroSeed addr hp)
  rw [SliceFits, hsize]
  omega

/-- Settles O43: the keystreams differ since steps are injective, and the size of a seed-0 block leaves the block. -/
theorem zeroSeedBlockIsMalformed : Obligations.ZeroSeedBlockIsMalformed := by
  refine ⟨fun n h => absurd (lcgPow_injective n h) (by decide), fun p s hp haddr hmagicV hmagic => ?_⟩
  have hu : encUninitialised false s = false := (encUninitialised_eq_false_iff _ s).mpr ⟨.inr hmagicV, haddr⟩
  have hseed : capturedSeed false s = 0 := hmagic
  have hexec := exec_encBlock_of_initialised hp hu
  rw [hseed] at hexec
  refine ⟨_, _, hexec, responds_of _ _ (encodedState_responses ..), fun u => ⟨_,
    decodedWordSpec (wireBlock s.addr 0 p) 1, BitVec.ofNat 32 (startByteSpec (wireBlock s.addr 0 p)),
    exec_decBlock_of_not_sliceFits (wireBlock_length _ _ hp) (not_sliceFits_of_zeroSeed s.addr hp) u, ?response,
    sameArch_decodedState_respond ..⟩⟩
  case response =>
    rw [malformedResponse, decodedWordSpec_zero_of_zeroSeed s.addr hp]
    exact responds_of _ _ (decodedState_responses ..)

end Sys2Proof.Laws

/-! Runs (60_exceptions.md R182 to R184; 30_encoding.md R74): a run over a list of commands, what KS_SKIP, ENC_STREAM
and DEC_STREAM come to, and the host's run. -/

namespace Sys2Proof.Laws

open Sys2Proof Sys2Proof.Machine Sys2Proof.Safety

/-! ### Runs of presentable moves -/

/-- A record of the shape and width R65 fixes is taken whole. -/
theorem assembleOperands_of_fits {op : Opcode} {ops : OperandRecord} (h : fits op ops = true) (cmd : Word) :
    ∃ i, assembleOperands op cmd ops = some i := by
  cases op with
  | ksInit | addrMask | unpackLe32 | addrLoad => match ops, h with | .word w, _ => exact ⟨_, rfl⟩
  | ksNext => match ops, h with | .empty, _ => exact ⟨_, rfl⟩
  | scrDword | dscrDword => match ops, h with | .pair w r, _ => exact ⟨_, rfl⟩
  | packLe32 => match ops, h with | .bytes4 b0 b1 b2 b3, _ => exact ⟨_, rfl⟩
  | encBlock => match ops, h with | .bytes bs, h => exact ⟨_, assembleOperands_encBlock cmd (beq_iff_eq.mp h)⟩
  | decBlock => match ops, h with | .bytes bs, h => exact ⟨_, assembleOperands_decBlock cmd (beq_iff_eq.mp h)⟩

/-- What the protocol lets the host present is judged by its word alone (R72, R194). -/
theorem decode_of_presentable {c : Command} (h : presentable (.issue c) = true) :
    decode c = .illegalWord ∨ ∃ i, decode c = .command i := by
  cases hop : decodeOpcode c.word with
  | none => exact .inl (decode_of_no_row hop)
  | some op =>
    have hfits : fits op c.operands = true := by simpa [presentable, hop] using h
    obtain ⟨i, hi⟩ := assembleOperands_of_fits hfits c.word
    exact .inr ⟨i, decode_of hop hi⟩

/-- R182: a presentable move is taken, and a command among them gets one response. -/
theorem step_of_presentable {s : State} {m : HostMove} {rest : List HostMove} (hp : s.pending = m :: rest)
    (hm : presentable m = true) :
    ∃ t, step s = .next t ∧ t.pending = rest ∧
      t.responses.length + issued rest = s.responses.length + issued (m :: rest) := by
  cases m with
  | reset => exact ⟨_, step_reset hp, resetBlock_pending _, rfl⟩
  | issue c =>
    have hcount : ∀ r : Response, (s.responses ++ [r]).length + issued rest =
        s.responses.length + issued (.issue c :: rest) := fun r => by
      rw [List.length_append, List.length_singleton, issued]
      omega
    rcases decode_of_presentable hm with hd | ⟨i, hd⟩
    · exact ⟨_, step_illegalWord hp hd, rfl, hcount _⟩
    · obtain ⟨-, hwf⟩ := encodeInvertsDecode c i hd
      have hresponds := responds_completed i { s with pending := rest }
      exact ⟨_, (step_command hp hd).trans (exec_eq_completed hwf _), writtenState_pending i _,
        hresponds ▸ hcount _⟩

/-- Settles O47: by induction on the moves to come. -/
theorem runAnswersEveryCommandOnce : Obligations.RunAnswersEveryCommandOnce := by
  intro s hok
  generalize hmoves : s.pending = moves
  rw [ProtocolOk, hmoves] at hok
  induction moves generalizing s with
  | nil => exact ⟨s, rfl, hmoves, rfl⟩
  | cons m rest ih =>
    obtain ⟨hm, hrest⟩ := List.forall_mem_cons.mp hok
    obtain ⟨u, hstep, hu, hcount⟩ := step_of_presentable hmoves hm
    obtain ⟨t, hrun, ht, hresponses⟩ := ih u hrest hu
    exact ⟨t, (run_succ_of_step hstep _).trans hrun, ht, hresponses.trans hcount⟩

/-! ### Runs of a program -/

/-- The moves that issue these commands. -/
def issues (is : List Instr) : List HostMove := is.map fun i => .issue (encode i)

/-- The state these commands leave, one after the other. -/
def completedAll (is : List Instr) (s : State) : State := is.foldl (fun s i => completed i s) s

theorem completedAll_cons (i : Instr) (is : List Instr) (s : State) :
    completedAll (i :: is) s = completedAll is (completed i s) := rfl

theorem completedAll_append (is js : List Instr) (s : State) :
    completedAll (is ++ js) s = completedAll js (completedAll is s) := List.foldl_append

theorem completedAll_concat (is : List Instr) (i : Instr) (s : State) :
    completedAll (is ++ [i]) s = completed i (completedAll is s) := completedAll_append ..

theorem completed_responses (i : Instr) (s : State) : (completed i s).responses = s.responses ++ [responseOf i s] :=
  responds_completed i s

/-- A program all of whose statements assemble issues their commands (R73). -/
theorem assembleProgram_of_map {sts : List Statement} {is : List Instr} (h : sts.map assemble = is.map some) :
    assembleProgram sts = some (issues is) := by
  induction sts generalizing is with
  | nil => rw [List.map_eq_nil_iff.mp h.symm]; rfl
  | cons st sts ih =>
    match is, h with
    | i :: is, h =>
      obtain ⟨hi, his⟩ := List.cons.inj h
      simp [assembleProgram, hi, ih his, issues]

/-- No command reads or writes the moves to come. -/
theorem writtenState_withPending (i : Instr) (s : State) (ms : List HostMove) :
    writtenState i { s with pending := ms } = { writtenState i s with pending := ms } := by
  cases i with
  | ksNext =>
    simp only [writtenState]
    split <;> rfl
  | encBlock f p =>
    have hread : encUninitialised f { s with pending := ms } = encUninitialised f s := rfl
    simp only [writtenState, hread]
    split
    · rfl
    · cases f <;> rfl
  | _ => rfl

theorem completed_withPending (i : Instr) (s : State) (ms : List HostMove) :
    completed i { s with pending := ms } = { completed i s with pending := ms } := by
  have hresponse : responseOf i { s with pending := ms } = responseOf i s := by cases i <;> rfl
  rw [completed, hresponse, writtenState_withPending]
  rfl

/-- R182: a run over well-formed commands takes each in turn and completes it. -/
theorem run_issues {is : List Instr} (hwf : ∀ i ∈ is, i.wf = true) (s : State) :
    Host.Core.run Sys2Proof.core (issues is).length { s with pending := issues is } =
      .next { completedAll is s with pending := [] } := by
  induction is generalizing s with
  | nil => rfl
  | cons i is ih =>
    obtain ⟨hi, his⟩ := List.forall_mem_cons.mp hwf
    have hstep : step { s with pending := issues (i :: is) } = .next { completed i s with pending := issues is } := by
      rw [step_command (s := { s with pending := issues (i :: is) }) rfl (decodeInvertsEncode i hi),
        exec_eq_completed hi, completed_withPending i s]
      rfl
    exact (run_succ_of_step hstep _).trans (ih his (completed i s))

/-! ### KS_SKIP -/

theorem sameAddr_setMagic_of {s u : State} (h : SameAddr s u) (v : Word) : SameAddr s (u.setMagic v) := h

/-- `n` steps of a valid generator (R74, R84). -/
theorem completedAll_ksNext {s : State} (hv : s.magicV = true) (n : Nat) :
    (completedAll (List.replicate n .ksNext) s).magic = lcgPow n s.magic ∧
    (completedAll (List.replicate n .ksNext) s).magicV = true ∧
    SameAddr s (completedAll (List.replicate n .ksNext) s) ∧
    (completedAll (List.replicate n .ksNext) s).responses =
      s.responses ++ (List.range n).map fun k => ⟨.ok, .word (lcgPow (k + 1) s.magic)⟩ := by
  induction n with
  | zero => exact ⟨rfl, hv, ⟨rfl, rfl⟩, (List.append_nil _).symm⟩
  | succ n ih =>
    rw [List.replicate_succ', completedAll_concat]
    generalize completedAll (List.replicate n .ksNext) s = u at ih ⊢
    obtain ⟨hmagic, hmagicV, haddr, hresponses⟩ := ih
    have hwritten : writtenState .ksNext u = u.setMagic (lcgPow (n + 1) s.magic) := by
      rw [writtenState, if_pos hmagicV, hmagic, lcgPow_succ]
    have hresponse : responseOf .ksNext u = ⟨.ok, .word (lcgPow (n + 1) s.magic)⟩ := by
      rw [responseOf, if_pos hmagicV, hmagic, lcgPow_succ]
    refine ⟨?magic, writtenState_magicV_of_valid hmagicV .ksNext, ?addr, ?responses⟩
    case magic => rw [completed, hwritten, respond_magic, setMagic_magic]
    case addr =>
      rw [completed, hwritten]
      exact sameAddr_respond (sameAddr_setMagic_of haddr _) ..
    case responses =>
      rw [completed_responses, hresponse, hresponses, List.range_succ, List.map_append, List.append_assoc]
      rfl

/-- Settles O45: the copies of KS_NEXT assemble to themselves and run in turn, and the last response is the `n`-th
value. -/
theorem skipAdvancesTheGenerator : Obligations.SkipAdvancesTheGenerator := by
  intro n s hv
  obtain ⟨hmagic, hmagicV, haddr, hresponses⟩ := completedAll_ksNext hv n
  have hmoves : assembleProgram (ksSkip n) = some (issues (List.replicate n .ksNext)) :=
    assembleProgram_of_map (by rw [ksSkip, List.map_replicate, List.map_replicate]; rfl)
  have hlen : (issues (List.replicate n .ksNext)).length = n := by simp [issues]
  have hrun := run_issues (is := List.replicate n .ksNext) (fun i hi => List.eq_of_mem_replicate hi ▸ rfl) s
  rw [hlen] at hrun
  refine ⟨_, _, _, hmoves, hlen, hrun, rfl, hmagic, hmagicV, haddr, hresponses, rfl, ?last⟩
  case last =>
    cases n with
    | zero => rfl
    | succ n =>
      rw [List.range_succ, List.map_append, List.map_singleton, ksSkipOutput_append_last, if_neg n.succ_ne_zero]

/-! ### The whole blocks of a decode stream -/

/-- The whole blocks of the data, in order. -/
def wholeBlocks (data : List Byte) : List (List Byte) :=
  (List.range (data.length / 2048)).map fun k => (data.drop (2048 * k)).take 2048

/-- R74: a decode stream is one DEC_BLOCK for each whole block. -/
theorem decStream_eq (data : List Byte) : decStream data = (wholeBlocks data).map .decBlock := by
  rw [wholeBlocks, List.map_map]
  rfl

theorem length_of_mem_wholeBlocks {data b : List Byte} (h : b ∈ wholeBlocks data) : b.length = 2048 := by
  obtain ⟨k, hk, rfl⟩ := List.mem_map.mp h
  have hk := List.mem_range.mp hk
  rw [List.length_take, List.length_drop]
  omega

theorem wholeBlocks_of_lt {data : List Byte} (h : data.length < 2048) : wholeBlocks data = [] := by
  rw [wholeBlocks, Nat.div_eq_of_lt h]
  rfl

theorem wholeBlocks_append_block {b : List Byte} (hb : b.length = 2048) (rest : List Byte) :
    wholeBlocks (b ++ rest) = b :: wholeBlocks rest := by
  have hcount : (b ++ rest).length / 2048 = rest.length / 2048 + 1 := by
    rw [List.length_append, hb, Nat.add_comm, Nat.add_div_right _ (by decide)]
  have hlater : ∀ k, (b ++ rest).drop (2048 * (k + 1)) = rest.drop (2048 * k) := fun k => by
    rw [Nat.mul_succ, Nat.add_comm, ← hb, List.drop_append, Nat.add_sub_cancel_left,
      List.drop_eq_nil_of_le (Nat.le_add_right _ _), List.nil_append]
  rw [wholeBlocks, hcount, List.range_succ_eq_map, List.map_cons, List.map_map, List.drop_zero,
    List.take_left' hb]
  simp only [wholeBlocks, Function.comp_def, Nat.succ_eq_add_one, hlater]

theorem wholeBlocks_flatten_append {bs : List (List Byte)} (hbs : ∀ b ∈ bs, b.length = 2048) (rest : List Byte) :
    wholeBlocks (bs.flatten ++ rest) = bs ++ wholeBlocks rest := by
  induction bs with
  | nil => rfl
  | cons b bs ih =>
    obtain ⟨hb, hbs⟩ := List.forall_mem_cons.mp hbs
    rw [List.flatten_cons, List.append_assoc, wholeBlocks_append_block hb, ih hbs, List.cons_append]

/-- R73: a block of 2048 bytes is never rejected. -/
theorem map_assemble_decBlock {bs : List (List Byte)} (hbs : ∀ b ∈ bs, b.length = 2048) :
    (bs.map Statement.decBlock).map assemble = (bs.map Instr.decBlock).map some := by
  rw [List.map_map, List.map_map]
  exact List.map_congr_left fun b hb => congrArg (Option.map Instr.decBlock) (fitBuffer_of_length (hbs b hb))

/-! ### What the host makes of a decode stream's responses -/

/-- The response to a block that decodes, of the given fields and payload. -/
def okResponse (x : Word × Word × Word × List Byte) : Response := ⟨.ok, .decoded x.1 x.2.1 x.2.2.1 x.2.2.2⟩

/-- R184: the payloads of the blocks that decode, then whatever the later responses come to. -/
theorem decStreamOutput_append (good : List (Word × Word × Word × List Byte)) (later : List Response) (k : Nat) :
    decStreamOutput k (good.map okResponse ++ later) =
      ((good.flatMap fun x => x.2.2.2) ++ (decStreamOutput (k + good.length) later).1,
        (decStreamOutput (k + good.length) later).2) := by
  induction good generalizing k with
  | nil => rfl
  | cons x good ih =>
    rw [List.map_cons, List.cons_append, okResponse, decStreamOutput, ih (k + 1), List.flatMap_cons, List.append_assoc,
      List.length_cons, Nat.add_right_comm k 1, Nat.add_assoc k]

theorem decStreamOutput_map (good : List (Word × Word × Word × List Byte)) (k : Nat) :
    decStreamOutput k (good.map okResponse) = (good.flatMap fun x => x.2.2.2, none) := by
  have := decStreamOutput_append good [] k
  rwa [List.append_nil, decStreamOutput, List.append_nil] at this

/-- Settles O46: the whole blocks by number, and the output by induction on the responses that decode. -/
theorem decodeRunEndsAtTheFirstMalformedBlock : Obligations.DecodeRunEndsAtTheFirstMalformedBlock := by
  refine ⟨fun data => ⟨?length, fun k hk => ?block⟩, fun good => decStreamOutput_map good 0,
    fun good a size start later => ?malformed⟩
  case length => rw [decStream_eq, wholeBlocks, List.length_map, List.length_map, List.length_range]
  case block => rw [decStream_eq, wholeBlocks, List.map_map, List.getElem?_map, List.getElem?_range hk]; rfl
  case malformed =>
    refine (decStreamOutput_append good _ 0).trans ?_
    rw [decStreamOutput, List.append_nil, Nat.zero_add]

/-! ### Decoding blocks one after the other -/

/-- The fields and the payload of a block that decodes (R132 to R136). -/
def decodedFields (blk : List Byte) : Word × Word × Word × List Byte :=
  (decodedWordSpec blk 1, decodedWordSpec blk 0, BitVec.ofNat 32 (startByteSpec blk), payloadSpec blk)

theorem sameArch_trans {s t u : State} (hst : SameArch s t) (htu : SameArch t u) : SameArch s u := by
  obtain ⟨hm, hmv, ha, hav⟩ := hst
  obtain ⟨hm', hmv', ha', hav'⟩ := htu
  exact ⟨hm'.trans hm, hmv'.trans hmv, ha'.trans ha, hav'.trans hav⟩

/-- R137: a decode leaves the registers of the encode direction and the moves to come. -/
theorem completedAll_decBlock {good : List (List Byte)} (hgood : ∀ b ∈ good, SliceFits b) (s : State) :
    (completedAll (good.map .decBlock) s).responses = s.responses ++ good.map decodedResponse ∧
      SameArch s (completedAll (good.map .decBlock) s) ∧
      (completedAll (good.map .decBlock) s).pending = s.pending := by
  induction good generalizing s with
  | nil => exact ⟨(List.append_nil _).symm, sameArch_refl s, rfl⟩
  | cons b good ih =>
    obtain ⟨hb, hgood⟩ := List.forall_mem_cons.mp hgood
    obtain ⟨hresponses, harch, hpending⟩ := ih hgood (completed (.decBlock b) s)
    rw [List.map_cons, completedAll_cons]
    refine ⟨?responses, sameArch_trans (sameArch_decodedState_respond ..) harch, ?pending⟩
    case responses =>
      rw [hresponses, completed_responses, responseOf_decBlock_of_sliceFits hb, List.append_assoc]
      rfl
    case pending => exact hpending.trans (decodedState_respond_pending ..)

/-! ### The host's decode run -/

/-- The commands of these blocks, numbered from `k`. -/
def decCommands (k : Nat) : List (List Byte) → List HostCommand
  | [] => []
  | b :: bs => ⟨encode (.decBlock b), some k⟩ :: decCommands (k + 1) bs

theorem hostCommands_decBlock {bs : List (List Byte)} (hbs : ∀ b ∈ bs, b.length = 2048) (k : Nat) :
    hostCommands (some k) (bs.map .decBlock) = some (decCommands k bs) := by
  induction bs generalizing k with
  | nil => rfl
  | cons b bs ih =>
    obtain ⟨hb, hbs⟩ := List.forall_mem_cons.mp hbs
    have hassemble : assemble (.decBlock b) = some (.decBlock b) :=
      congrArg (Option.map Instr.decBlock) (fitBuffer_of_length hb)
    simp [hostCommands, hassemble, ih hbs, decCommands]

theorem decStreamCommands_eq (data : List Byte) : decStreamCommands data = some (decCommands 0 (wholeBlocks data)) := by
  rw [decStreamCommands, decStream_eq]
  exact hostCommands_decBlock (fun _ => length_of_mem_wholeBlocks) 0

theorem step_enqueue_decBlock {b : List Byte} (hb : b.length = 2048) (s : State) :
    step (s.enqueue (encode (.decBlock b))) = .next (completed (.decBlock b) s) := by
  have hwf : (Instr.decBlock b).wf = true := beq_iff_eq.mpr hb
  rw [step_enqueue (decodeInvertsEncode _ hwf), exec_eq_completed hwf]

theorem getLast?_completed_responses (i : Instr) (s : State) :
    (completed i s).responses.getLast? = some (responseOf i s) := by
  rw [completed_responses, List.getLast?_concat]

/-- R184: the run goes on over the blocks that decode. -/
theorem runHost_decCommands_append {good : List (List Byte)} (hgood : ∀ b ∈ good, b.length = 2048 ∧ SliceFits b)
    (later : List (List Byte)) (k : Nat) (s : State) :
    runHost (decCommands k (good ++ later)) s =
      runHost (decCommands (k + good.length) later) (completedAll (good.map .decBlock) s) := by
  induction good generalizing k s with
  | nil => rfl
  | cons b good ih =>
    obtain ⟨⟨hb, hfits⟩, hgood⟩ := List.forall_mem_cons.mp hgood
    have hlast := getLast?_completed_responses (.decBlock b) s
    rw [responseOf_decBlock_of_sliceFits hfits] at hlast
    rw [List.cons_append, decCommands]
    rcases runHost_cons (h := ⟨encode (.decBlock b), some k⟩) (step_enqueue_decBlock hb s)
      (decCommands (k + 1) (good ++ later)) with ⟨e, herror, -⟩ | ⟨-, hrun⟩
    · rw [hlast, HostCommand_error_of_status (by simp [decodedResponse])] at herror
      cases herror
    · rw [hrun, ih hgood, List.length_cons, List.map_cons, completedAll_cons, Nat.add_assoc, Nat.add_comm 1]

/-- R184: the run ends at a malformed block, whatever follows it. -/
theorem runHost_decCommands_malformed {bad : List Byte} (hbad : bad.length = 2048) (hout : ¬ SliceFits bad)
    (later : List (List Byte)) (k : Nat) (s : State) :
    runHost (decCommands k (bad :: later)) s = .next ⟨completed (.decBlock bad) s,
      some ⟨k, decodedWordSpec bad 1, decodedWordSpec bad 0, BitVec.ofNat 32 (startByteSpec bad)⟩⟩ := by
  have hlast := getLast?_completed_responses (.decBlock bad) s
  rw [responseOf_decBlock_of_not_sliceFits hout] at hlast
  simp only [decCommands, runHost, step_enqueue_decBlock hbad, hlast, HostCommand.error, malformedResponse]

theorem map_okResponse_decodedFields (good : List (List Byte)) :
    (good.map decodedFields).map okResponse = good.map decodedResponse := by
  rw [List.map_map]
  rfl

theorem flatMap_decodedFields (good : List (List Byte)) :
    ((good.map decodedFields).flatMap fun x => x.2.2.2) = good.flatMap payloadSpec := by
  rw [List.flatMap_map]
  rfl

/-- Settles O51: the run over the blocks that decode, then nothing, or the malformed block at which it ends. -/
theorem hostEndsTheDecodeRunAtTheFirstMalformedBlock : Obligations.HostEndsTheDecodeRunAtTheFirstMalformedBlock := by
  refine ⟨fun good tail s hgood htail => ?all, fun good bad later s hgood hbad hout => ?malformed⟩
  case all =>
    obtain ⟨hresponses, harch, hpending⟩ := completedAll_decBlock (fun b hb => (hgood b hb).2) s
    refine ⟨_, completedAll (good.map .decBlock) s, decStreamCommands_eq _, ?run, hresponses, harch, hpending, ?output⟩
    case run =>
      rw [wholeBlocks_flatten_append (fun b hb => (hgood b hb).1), wholeBlocks_of_lt htail,
        runHost_decCommands_append hgood]
      rfl
    case output => rw [← map_okResponse_decodedFields, decStreamOutput_map, flatMap_decodedFields]
  case malformed =>
    obtain ⟨hresponses, harch, hpending⟩ := completedAll_decBlock (fun b hb => (hgood b hb).2) s
    refine ⟨_, completed (.decBlock bad) (completedAll (good.map .decBlock) s), _, decStreamCommands_eq _, ?run, rfl,
      ?responses, sameArch_trans harch (sameArch_decodedState_respond ..),
      (decodedState_respond_pending ..).trans hpending, ?output⟩
    case run =>
      rw [wholeBlocks_flatten_append (fun b hb => (hgood b hb).1), wholeBlocks_append_block hbad,
        runHost_decCommands_append hgood, runHost_decCommands_malformed hbad hout, Nat.zero_add]
    case responses =>
      rw [completed_responses, responseOf_decBlock_of_not_sliceFits hout, hresponses, List.append_assoc]
    case output =>
      rw [← map_okResponse_decodedFields, decStreamOutput_append, malformedResponse, decStreamOutput, List.append_nil,
        flatMap_decodedFields, List.length_map, Nat.zero_add]

/-! ### The chunks of an encode stream -/

theorem streamChunks_eq (data : List Byte) : streamChunks data = (data.length + 1023) / 1024 := by
  rw [streamChunks, params_payloadBytes]
  rfl

/-- The data with its padding up to a whole number of chunks (90_conflicts.md C3). -/
def paddedData (data : List Byte) : List Byte :=
  data ++ List.replicate ((data.length + 1023) / 1024 * 1024 - data.length) 0xFF

theorem paddedData_length (data : List Byte) : (paddedData data).length = 1024 * streamChunks data := by
  rw [paddedData, List.length_append, List.length_replicate, streamChunks_eq]
  omega

/-- A chunk is the slice of the padded data at its place. -/
theorem streamChunk_eq {data : List Byte} {k : Nat} (hk : k < streamChunks data) :
    streamChunk data k = ((paddedData data).drop (1024 * k)).take 1024 := by
  rw [streamChunks_eq] at hk
  have hstart : 1024 * k - data.length = 0 := by omega
  rw [streamChunk, params_payloadBytes, params_padByte, paddedData, List.drop_append, hstart, List.drop_zero,
    List.take_append, List.take_replicate]
  congr 2
  rw [List.length_take, List.length_drop]
  omega

theorem streamChunk_length {data : List Byte} {k : Nat} (hk : k < streamChunks data) :
    (streamChunk data k).length = 1024 := by
  rw [streamChunk_eq hk, List.length_take, List.length_drop, paddedData_length]
  omega

/-- Consecutive slices of one width make up what they are cut from. -/
theorem flatMap_slices {α : Type} (l : List α) (m n : Nat) :
    ((List.range n).flatMap fun k => (l.drop (m * k)).take m) = l.take (m * n) := by
  induction n with
  | zero => rfl
  | succ n ih => rw [List.range_succ, List.flatMap_append, ih, List.flatMap_singleton, Nat.mul_succ, List.take_add]

theorem flatMap_streamChunk (data : List Byte) :
    (List.range (streamChunks data)).flatMap (streamChunk data) = paddedData data := by
  have hslices : ∀ k ∈ List.range (streamChunks data),
      streamChunk data k = ((paddedData data).drop (1024 * k)).take 1024 :=
    fun k hk => streamChunk_eq (List.mem_range.mp hk)
  rw [List.flatMap_congr hslices, flatMap_slices, ← paddedData_length, List.take_length]

/-! ### The encode stream -/

/-- The address of block `k` of a stream that starts at `a` (R183). -/
def streamAddress (a k : Nat) : Word := BitVec.ofNat 32 (a + 1024 * k)

/-- The seed of block `k` of a stream (40_keystream.md R88). -/
def streamSeed (k : Nat) : Word := lcgPow (512 * k) 0x6569B868

/-- Block `k` of `ENC_STREAM`. -/
def streamBlock (a : Nat) (data : List Byte) (k : Nat) : List Byte :=
  wireBlock (streamAddress a k) (streamSeed k) (streamChunk data k)

/-- The first `n` block commands of `ENC_STREAM`. -/
def streamEncodes (data : List Byte) (n : Nat) : List Instr :=
  (List.range n).map fun k => .encBlock (k == 0) (streamChunk data k)

theorem streamBlock_length {a : Nat} {data : List Byte} {k : Nat} (hk : k < streamChunks data) :
    (streamBlock a data k).length = 2048 := wireBlock_length _ _ (streamChunk_length hk)

theorem streamAddress_succ (a k : Nat) : streamAddress a (k + 1) = streamAddress a k + 1024 := by
  rw [streamAddress, Nat.mul_succ, ← Nat.add_assoc, BitVec.ofNat_add]
  rfl

theorem streamSeed_succ (k : Nat) : streamSeed (k + 1) = lcgPow 512 (streamSeed k) := by
  rw [streamSeed, streamSeed, ← lcgPow_add, Nat.mul_succ, Nat.add_comm]

theorem streamSeed_ne_zero (k : Nat) : streamSeed k ≠ 0 := lcgPow_lattice_ne_zero k

/-- R74: the first chunk is encoded with `F = 1`, the others with `F = 0`. -/
theorem assemble_streamChunk {data : List Byte} {k : Nat} (hk : k < streamChunks data) :
    assemble (if k = 0 then .encBlockFirst (streamChunk data k) else .encBlock (streamChunk data k)) =
      some (.encBlock (k == 0) (streamChunk data k)) := by
  have hfit := fitBuffer_of_length (streamChunk_length hk)
  split_ifs with h
  · rw [h] at hfit ⊢
    exact congrArg (Option.map (Instr.encBlock true)) hfit
  · rw [beq_eq_false_iff_ne.mpr h]
    exact congrArg (Option.map (Instr.encBlock false)) hfit

/-- The commands of `ENC_STREAM` (R74). -/
def encStreamCommands (a : Nat) (data : List Byte) : List Instr :=
  .addrLoad (streamAddress a 0) :: streamEncodes data (streamChunks data)

theorem assembleProgram_encStream {a : Nat} (ha : a < 2 ^ 32) (data : List Byte) :
    assembleProgram (encStream a data) = some (issues (encStreamCommands a data)) := by
  apply assembleProgram_of_map
  rw [encStream, encStreamCommands, streamEncodes, List.map_cons, List.map_cons, List.map_map, List.map_map]
  have hload : assemble (.addrLoad a) = some (.addrLoad (streamAddress a 0)) :=
    congrArg (Option.map Instr.addrLoad) (fitBits_of_lt ha)
  exact congrArg₂ List.cons hload (List.map_congr_left fun k hk => assemble_streamChunk (List.mem_range.mp hk))

/-- The registers between two blocks of a stream that starts at `a`, after `k` of them. -/
def BeforeStreamBlock (a k : Nat) (s : State) : Prop :=
  s.addr = streamAddress a k ∧ s.addrV = true ∧ (k ≠ 0 → s.magic = streamSeed k ∧ s.magicV = true)

/-- R105: each block of a stream takes the registers to the next one. -/
theorem completed_streamBlock {a k : Nat} {u : State} (hu : BeforeStreamBlock a k u) (p : List Byte) :
    BeforeStreamBlock a (k + 1) (completed (.encBlock (k == 0) p) u) ∧
      responseOf (.encBlock (k == 0) p) u = ⟨.ok, .block (wireBlock (streamAddress a k) (streamSeed k) p)⟩ := by
  obtain ⟨haddr, haddrV, hmagic⟩ := hu
  have hvalid : (k == 0) = true ∨ u.magicV = true := by
    rcases eq_or_ne k 0 with rfl | hk
    · exact .inl rfl
    · exact .inr (hmagic hk).2
  have hseed : capturedSeed (k == 0) u = streamSeed k := by
    rcases eq_or_ne k 0 with rfl | hk
    · rfl
    · rw [beq_eq_false_iff_ne.mpr hk]
      exact (hmagic hk).1
  rcases encBlock_cases (k == 0) p u with ⟨hu, -⟩ | ⟨-, -, hwritten, hresponse⟩
  · rw [(encUninitialised_eq_false_iff _ u).mpr ⟨hvalid, haddrV⟩] at hu
    cases hu
  · rw [haddr, hseed] at hresponse
    refine ⟨?_, hresponse⟩
    rw [completed, hwritten]
    refine ⟨?addr, ?addrV, fun _ => ⟨?magic, ?magicV⟩⟩
    case addr => rw [respond_addr, encodedState_addr, haddr, streamAddress_succ]
    case addrV => rw [respond_addrV, encodedState_addrV, haddrV]
    case magic => rw [respond_magic, encodedState_magic, hseed, streamSeed_succ]
    case magicV => rw [respond_magicV, encodedState_magicV, Bool.or_eq_true]; exact hvalid

theorem completedAll_streamEncodes {a : Nat} {s : State} (hs : BeforeStreamBlock a 0 s) (data : List Byte) (n : Nat) :
    BeforeStreamBlock a n (completedAll (streamEncodes data n) s) ∧
      (completedAll (streamEncodes data n) s).responses =
        s.responses ++ (List.range n).map fun k => ⟨.ok, .block (streamBlock a data k)⟩ := by
  induction n with
  | zero => exact ⟨hs, (List.append_nil _).symm⟩
  | succ n ih =>
    obtain ⟨hbefore, hresponses⟩ := ih
    obtain ⟨hafter, hresponse⟩ := completed_streamBlock hbefore (streamChunk data n)
    have hlast : streamEncodes data (n + 1) = streamEncodes data n ++ [.encBlock (n == 0) (streamChunk data n)] := by
      rw [streamEncodes, List.range_succ, List.map_append]
      rfl
    rw [hlast, completedAll_concat]
    refine ⟨hafter, ?_⟩
    rw [completed_responses, hresponse, hresponses, List.range_succ, List.map_append, List.append_assoc]
    rfl

/-- The blocks of `ENC_STREAM`, in order. -/
def streamBlocks (a : Nat) (data : List Byte) : List (List Byte) :=
  (List.range (streamChunks data)).map (streamBlock a data)

theorem streamBlocks_forall {a : Nat} {data : List Byte} {P : List Byte → Prop}
    (h : ∀ k, k < streamChunks data → P (streamBlock a data k)) : ∀ b ∈ streamBlocks a data, P b := by
  intro b hb
  obtain ⟨k, hk, rfl⟩ := List.mem_map.mp hb
  exact h k (List.mem_range.mp hk)

theorem length_of_mem_streamBlocks (a : Nat) (data : List Byte) : ∀ b ∈ streamBlocks a data, b.length = 2048 :=
  streamBlocks_forall fun _ => streamBlock_length

theorem streamBlocks_flatten_length (a : Nat) (data : List Byte) :
    (streamBlocks a data).flatten.length = (data.length + 1023) / 1024 * 2048 := by
  rw [List.length_flatten, List.map_congr_left (length_of_mem_streamBlocks a data), List.map_const', List.sum_replicate,
    smul_eq_mul, streamBlocks, List.length_map, List.length_range, streamChunks_eq]

/-- R183: the output of the encode stream is its blocks joined. -/
theorem encStreamOutput_blocks (bs : List (List Byte)) :
    encStreamOutput (⟨.ok, .none⟩ :: bs.map fun b => ⟨.ok, .block b⟩) = bs.flatten := by
  rw [encStreamOutput, List.flatMap_cons, List.flatMap_map]
  exact List.flatMap_id

/-- The run of `ENC_STREAM` from any state (R74, R182). -/
theorem run_encStream (a : Nat) (data : List Byte) (s : State) :
    ∃ t, Host.Core.run Sys2Proof.core (issues (encStreamCommands a data)).length
        { s with pending := issues (encStreamCommands a data), responses := [] } = .next t ∧
      encStreamOutput t.responses = (streamBlocks a data).flatten := by
  have hwf : ∀ i ∈ encStreamCommands a data, i.wf = true := by
    refine List.forall_mem_cons.mpr ⟨rfl, fun i hi => ?_⟩
    obtain ⟨k, hk, rfl⟩ := List.mem_map.mp hi
    exact beq_iff_eq.mpr (streamChunk_length (List.mem_range.mp hk))
  have hstart : BeforeStreamBlock a 0 (completed (.addrLoad (streamAddress a 0)) { s with responses := [] }) :=
    ⟨rfl, rfl, fun h => absurd rfl h⟩
  obtain ⟨-, hresponses⟩ := completedAll_streamEncodes hstart data (streamChunks data)
  refine ⟨_, run_issues hwf { s with responses := [] }, ?_⟩
  rw [encStreamCommands, completedAll_cons, hresponses, ← encStreamOutput_blocks, streamBlocks, List.map_map]
  rfl

/-! ### The stream round trip -/

theorem decStream_streamBlocks (a : Nat) (data : List Byte) :
    decStream (streamBlocks a data).flatten = (streamBlocks a data).map .decBlock := by
  have hwhole := wholeBlocks_flatten_append (length_of_mem_streamBlocks a data) []
  rw [List.append_nil, wholeBlocks_of_lt (List.length_nil.trans_lt (by decide)), List.append_nil] at hwhole
  rw [decStream_eq, hwhole]

/-- R139 for each block of a stream, whose seed is never 0. -/
theorem map_decodedResponse_streamBlocks (a : Nat) (data : List Byte) :
    (streamBlocks a data).map decodedResponse =
      ((List.range (streamChunks data)).map fun k =>
        (streamAddress a k, 1024, 318, streamChunk data k)).map okResponse := by
  rw [streamBlocks, List.map_map, List.map_map]
  exact List.map_congr_left fun k hk =>
    decodedResponse_wireBlock _ (streamSeed_ne_zero k) (streamChunk_length (List.mem_range.mp hk))

/-- The run of `DEC_STREAM` over the blocks of an encode stream, from any state. -/
theorem run_decStream (a : Nat) (data : List Byte) (s : State) :
    ∃ u, Host.Core.run Sys2Proof.core (issues ((streamBlocks a data).map .decBlock)).length
        { s with pending := issues ((streamBlocks a data).map .decBlock), responses := [] } = .next u ∧
      u.responses = (streamBlocks a data).map decodedResponse := by
  have hwf : ∀ i ∈ (streamBlocks a data).map Instr.decBlock, i.wf = true := by
    intro i hi
    obtain ⟨b, hb, rfl⟩ := List.mem_map.mp hi
    exact beq_iff_eq.mpr (length_of_mem_streamBlocks a data b hb)
  have hfits : ∀ b ∈ streamBlocks a data, SliceFits b := streamBlocks_forall fun k hk =>
    sliceFits_wireBlock _ (streamSeed_ne_zero k) (streamChunk_length hk)
  obtain ⟨hresponses, -, -⟩ := completedAll_decBlock hfits { s with responses := [] }
  exact ⟨_, run_issues hwf { s with responses := [] }, hresponses⟩

/-- Settles O44: the blocks of the encode stream are the whole blocks the decode stream is given, and each decodes to
its address and chunk. -/
theorem streamRoundTrip : Obligations.StreamRoundTrip := by
  intro a data s s' ha
  obtain ⟨t, hrun, houtput⟩ := run_encStream a data s
  obtain ⟨u, hrun', hresponses⟩ := run_decStream a data s'
  refine ⟨_, t, assembleProgram_encStream ha data, hrun, ?length, _, u, ?program, hrun', ?output, fun k hk => ?block⟩
  case length => rw [houtput, streamBlocks_flatten_length]
  case program =>
    rw [houtput, decStream_streamBlocks]
    exact assembleProgram_of_map (map_assemble_decBlock (length_of_mem_streamBlocks a data))
  case output =>
    rw [hresponses, map_decodedResponse_streamBlocks, decStreamOutput_map, List.flatMap_map, flatMap_streamChunk,
      paddedData]
  case block =>
    refine ⟨streamChunk data k, ?_⟩
    rw [← streamChunks_eq] at hk
    rw [hresponses, map_decodedResponse_streamBlocks, List.map_map, List.getElem?_map, List.getElem?_range hk]
    rfl

end Sys2Proof.Laws
